-- ==== Sys2Proof/Word.lean ====
section
/-! DEFINITION. The two word types of the block (rule R5): a byte `u8` and a 16-bit word `u16`.
Arithmetic on either is that of `BitVec`, modulo 256 and modulo 65536. -/

namespace Sys2Proof

/-- A `u8` of rule R5. -/
abbrev Byte := BitVec 8

/-- A `u16` of rule R5: an address, a pair view, SP or PC. -/
abbrev Word := BitVec 16

end Sys2Proof
end

