-- ==== Sys2Proof/Config.lean ====
section
/-! DEFINITION. The parameters of the model (rule R4), as a value the construction takes; the sizes the source
fixes; and the values the spec leaves open, as constants without a body (log entries 2, 3, 4, 5 and 6). -/

namespace Sys2Proof

/-- The bank controllers in scope (rules R2, R67). -/
inductive Controller where
  | noBanking
  | linearBanked
  deriving DecidableEq, Repr, Inhabited

/-- The opcode byte values (rule R4), one for each row of the opcode map, each under its instruction's name. -/
structure Opcodes where
  nop : Byte
  ldBCd16 : Byte
  stBCA : Byte
  decB : Byte
  ldBd8 : Byte
  decC : Byte
  ldCd8 : Byte
  ldDEd16 : Byte
  stDEA : Byte
  decD : Byte
  ldDd8 : Byte
  decE : Byte
  ldEd8 : Byte
  jrNZ : Byte
  ldHLd16 : Byte
  decH : Byte
  ldHd8 : Byte
  decL : Byte
  ldLd8 : Byte
  ldSPd16 : Byte
  stHLDecA : Byte
  decA : Byte
  ldAd8 : Byte
  stHLB : Byte
  stHLC : Byte
  stHLD : Byte
  stHLE : Byte
  stHLH : Byte
  stHLL : Byte
  stHLA : Byte
  xorB : Byte
  xorC : Byte
  xorD : Byte
  xorE : Byte
  xorH : Byte
  xorL : Byte
  xorHL : Byte
  xorA : Byte
  jp : Byte
  deriving DecidableEq, Repr

/-- `ADDR_*`, the addresses of the named I/O registers (rules R4, R25). -/
structure IoAddresses where
  joyp : Word
  sb : Word
  sc : Word
  div : Word
  tima : Word
  tma : Word
  tac : Word
  intf : Word      -- `ADDR_IF`
  lcdc : Word
  stat : Word
  scy : Word
  scx : Word
  ly : Word
  lyc : Word
  bgp : Word
  obp0 : Word
  obp1 : Word
  bootOff : Word   -- `ADDR_BOOT_OFF`
  audio : List (Nat × Nat)   -- `AUDIO_RANGE`: ranges of addresses, both bounds inclusive
  deriving DecidableEq, Repr

/-- `VECTOR[0..4]` (rules R4, R186). -/
structure Vectors where
  vBlank : Word
  lcdStatus : Word
  timer : Word
  serial : Word
  joypad : Word
  deriving DecidableEq, Repr

/-- The parameters of rule R4, but for the image and the boot program, which the construction takes beside
them. -/
structure Params where
  unmappedReadValue : Byte   -- `UNMAPPED_READ_VALUE`
  imeReset : Bool            -- `IME_RESET`
  lyPeriod : Nat             -- `LY_PERIOD`
  addr : IoAddresses         -- `ADDR_*`
  vector : Vectors           -- `VECTOR[0..4]`
  titleOffset : Nat          -- `TITLE_OFFSET`
  typeOffset : Nat           -- `TYPE_OFFSET`
  typeNoBanking : Byte       -- `TYPE_NOBANKING`
  typeLinear : Byte          -- `TYPE_LINEAR`
  opcodes : Opcodes
  deriving DecidableEq, Repr

namespace Config

/-- ROM bank size, 16 KiB (rule R4). -/
abbrev bankSize : Nat := 0x4000

/-- Size of the boot overlay (rule R4). -/
abbrev bootSize : Nat := 0x100

/-- The title is a fixed 15-byte window (rule R66). -/
abbrev titleLength : Nat := 15

/-- The byte a read of the prohibited range 0xFEA0..0xFEFF gives (rule R48, U1): free for each read,
the first argument counting those reads and the second being the address (log entry 2). -/
opaque prohibitedByte : Nat → Word → Byte

/-- What a RAM byte holds after reset, by address (rule R35, U16): free (log entry 3). -/
opaque ramByte : Nat → Byte

/-- `BOOT_ROM[i]` where the state lists no byte (rule R4, N7): free (log entry 4). -/
opaque bootByte : Nat → Byte

/-- `IMAGE[i]` where the state lists no byte (rule R4): free (log entry 5). -/
opaque imageByte : Nat → Byte

/-- How many bytes the cartridge image of `State.reset` has beyond the least size 0x4000: free (log
entry 6). -/
opaque imageExtra : Nat

/-- The bank controller of the cartridge of `State.reset`: free (log entry 6). -/
opaque resetController : Controller

end Config

end Sys2Proof
end

