-- ==== Sys2Proof/Machine/Bits.lean ====
section
/-! DEFINITION. The byte and word helpers of rule R6: concatenation, the two halves of a word, sign
extension. -/

namespace Sys2Proof

/-- `hi ++ lo` of rule R6, `(hi << 8) | lo`: the word with high byte `hi` and low byte `lo`. -/
def joinBytes (hi lo : Byte) : Word := (hi.setWidth 16 <<< 8) ||| lo.setWidth 16

/-- `v[15:8]` (rule R5). -/
def hiByte (v : Word) : Byte := v.extractLsb' 8 8

/-- `v[7:0]` (rule R5). -/
def loByte (v : Word) : Byte := v.extractLsb' 0 8

/-- `sext_16(b)` of rule R6: the two's-complement value of `b`, 16 bits wide. -/
def sext16 (b : Byte) : Word := b.signExtend 16

end Sys2Proof
end

