-- ==== Sys2Proof/Syntax.lean ====
section
/-! DEFINITION. The instruction set as syntax: one constructor of `Instr` for each of the 39 rows of
spec/opcode_table.json (rule R86), and the decoded form of rule R84 (an operation kind, typed
operands and a byte length). -/

namespace Sys2Proof

/-- The eight 8-bit registers (rule R10). F is a register that no opcode names (rule R84). -/
inductive Reg8 where
  | a | f | b | c | d | e | h | l
  deriving DecidableEq, Repr

/-- The 16-bit views and SP (rules R6, R11, R13). -/
inductive Reg16 where
  | af | bc | de | hl | sp
  deriving DecidableEq, Repr

/-- The pointer forms (rule R84): `hlDec` is the decrement-on-use variant (HL-). -/
inductive Pointer where
  | bc | de | hl | hlDec
  deriving DecidableEq, Repr

/-- The condition codes in scope: not-zero only (rule R84). -/
inductive Cond where
  | nz
  deriving DecidableEq, Repr

/-- The eight operation kinds (rule R3). -/
inductive OpKind where
  | load16        -- 16-bit immediate load
  | load8         -- 8-bit immediate load
  | store         -- store through a pointer
  | dec8          -- 8-bit decrement
  | xor           -- exclusive-or with the accumulator
  | jump          -- absolute jump
  | jumpRelative  -- conditional relative jump
  | noop
  deriving DecidableEq, Repr

/-- A typed operand (rule R84). -/
inductive Operand where
  | reg (r : Reg8)
  | pair (p : Reg16)
  | pointer (p : Pointer)
  | cond (c : Cond)
  | imm8 (d8 : Byte)
  | imm16 (d16 : Word)
  | disp8 (e8 : Byte)
  deriving DecidableEq, Repr

/-- "An operation tag paired with zero or more typed operands and a byte length" (rule R84). -/
structure Form where
  kind     : OpKind
  operands : List Operand
  length   : Nat
  deriving DecidableEq, Repr

/-- One constructor for each opcode of rule R86, with its immediate operand where it has one. -/
inductive Instr where
  | nop
  | ldBCd16 (d16 : Word)
  | ldDEd16 (d16 : Word)
  | ldHLd16 (d16 : Word)
  | ldSPd16 (d16 : Word)
  | ldBd8 (d8 : Byte)
  | ldCd8 (d8 : Byte)
  | ldDd8 (d8 : Byte)
  | ldEd8 (d8 : Byte)
  | ldHd8 (d8 : Byte)
  | ldLd8 (d8 : Byte)
  | ldAd8 (d8 : Byte)
  | stBCA
  | stDEA
  | stHLDecA
  | stHLB
  | stHLC
  | stHLD
  | stHLE
  | stHLH
  | stHLL
  | stHLA
  | decB
  | decC
  | decD
  | decE
  | decH
  | decL
  | decA
  | xorB
  | xorC
  | xorD
  | xorE
  | xorH
  | xorL
  | xorA
  | xorHL
  | jp (a16 : Word)
  | jrNZ (e8 : Byte)
  deriving DecidableEq, Repr

/-- The decoded form of an instruction (rules R84, R86). -/
def Instr.form : Instr → Form
  | .nop         => ⟨.noop, [], 1⟩
  | .ldBCd16 d16 => ⟨.load16, [.pair .bc, .imm16 d16], 3⟩
  | .ldDEd16 d16 => ⟨.load16, [.pair .de, .imm16 d16], 3⟩
  | .ldHLd16 d16 => ⟨.load16, [.pair .hl, .imm16 d16], 3⟩
  | .ldSPd16 d16 => ⟨.load16, [.pair .sp, .imm16 d16], 3⟩
  | .ldBd8 d8    => ⟨.load8, [.reg .b, .imm8 d8], 2⟩
  | .ldCd8 d8    => ⟨.load8, [.reg .c, .imm8 d8], 2⟩
  | .ldDd8 d8    => ⟨.load8, [.reg .d, .imm8 d8], 2⟩
  | .ldEd8 d8    => ⟨.load8, [.reg .e, .imm8 d8], 2⟩
  | .ldHd8 d8    => ⟨.load8, [.reg .h, .imm8 d8], 2⟩
  | .ldLd8 d8    => ⟨.load8, [.reg .l, .imm8 d8], 2⟩
  | .ldAd8 d8    => ⟨.load8, [.reg .a, .imm8 d8], 2⟩
  | .stBCA       => ⟨.store, [.pointer .bc, .reg .a], 1⟩
  | .stDEA       => ⟨.store, [.pointer .de, .reg .a], 1⟩
  | .stHLDecA    => ⟨.store, [.pointer .hlDec, .reg .a], 1⟩
  | .stHLB       => ⟨.store, [.pointer .hl, .reg .b], 1⟩
  | .stHLC       => ⟨.store, [.pointer .hl, .reg .c], 1⟩
  | .stHLD       => ⟨.store, [.pointer .hl, .reg .d], 1⟩
  | .stHLE       => ⟨.store, [.pointer .hl, .reg .e], 1⟩
  | .stHLH       => ⟨.store, [.pointer .hl, .reg .h], 1⟩
  | .stHLL       => ⟨.store, [.pointer .hl, .reg .l], 1⟩
  | .stHLA       => ⟨.store, [.pointer .hl, .reg .a], 1⟩
  | .decB        => ⟨.dec8, [.reg .b], 1⟩
  | .decC        => ⟨.dec8, [.reg .c], 1⟩
  | .decD        => ⟨.dec8, [.reg .d], 1⟩
  | .decE        => ⟨.dec8, [.reg .e], 1⟩
  | .decH        => ⟨.dec8, [.reg .h], 1⟩
  | .decL        => ⟨.dec8, [.reg .l], 1⟩
  | .decA        => ⟨.dec8, [.reg .a], 1⟩
  | .xorB        => ⟨.xor, [.reg .a, .reg .b], 1⟩
  | .xorC        => ⟨.xor, [.reg .a, .reg .c], 1⟩
  | .xorD        => ⟨.xor, [.reg .a, .reg .d], 1⟩
  | .xorE        => ⟨.xor, [.reg .a, .reg .e], 1⟩
  | .xorH        => ⟨.xor, [.reg .a, .reg .h], 1⟩
  | .xorL        => ⟨.xor, [.reg .a, .reg .l], 1⟩
  | .xorA        => ⟨.xor, [.reg .a, .reg .a], 1⟩
  | .xorHL       => ⟨.xor, [.reg .a, .pointer .hl], 1⟩
  | .jp a16      => ⟨.jump, [.imm16 a16], 3⟩
  | .jrNZ e8     => ⟨.jumpRelative, [.cond .nz, .disp8 e8], 2⟩

/-- The operation kind of an instruction (rule R3). -/
def Instr.kind (i : Instr) : OpKind := i.form.kind

/-- The byte length of an instruction (rules R80, R90). -/
def Instr.length (i : Instr) : Nat := i.form.length

end Sys2Proof
end

