-- ==== Sys2Proof/WellFormed.lean ====
section
/-! DEFINITION. Which decoded forms the instruction set admits (rules R82, R84): the operands fit the
kind, and the length is the kind's. Every immediate has the width of its type, so every term of
`Instr` is well formed; a `Form` need not be. -/

namespace Sys2Proof

/-- A register operand an opcode can name: any but F (rule R84). -/
def Reg8.encodable (r : Reg8) : Bool := r != .f

/-- The stores there are: (BC), (DE) and (HL-) store A only; (HL) stores any register but F (rule R82). -/
def storeAdmitted : Pointer → Reg8 → Bool
  | .bc, r    => r == .a
  | .de, r    => r == .a
  | .hlDec, r => r == .a
  | .hl, r    => r.encodable

/-- The operands fit the operation kind (rules R82, R84). -/
def operandsFit : OpKind → List Operand → Bool
  | .load16, [.pair p, .imm16 _]            => p != .af
  | .load8, [.reg r, .imm8 _]               => r.encodable
  | .store, [.pointer p, .reg r]            => storeAdmitted p r
  | .dec8, [.reg r]                         => r.encodable
  | .xor, [.reg dst, .reg r]                => dst == .a && r.encodable
  | .xor, [.reg dst, .pointer p]            => dst == .a && p == .hl
  | .jump, [.imm16 _]                       => true
  | .jumpRelative, [.cond .nz, .disp8 _]    => true
  | .noop, []                               => true
  | _, _                                    => false

/-- The byte length of each operation kind: formats F1, F2, F3 (rules R81, R90). -/
def OpKind.length : OpKind → Nat
  | .load16       => 3
  | .load8        => 2
  | .store        => 1
  | .dec8         => 1
  | .xor          => 1
  | .jump         => 3
  | .jumpRelative => 2
  | .noop         => 1

/-- A decoded form is one the instruction set has. -/
def Form.wellFormed (f : Form) : Bool :=
  operandsFit f.kind f.operands && f.length == f.kind.length

/-- An instruction is well formed when its form is. -/
def Instr.wellFormed (i : Instr) : Bool := i.form.wellFormed

end Sys2Proof
end

