-- ==== Sys2Proof/Decode.lean ====
section
/-! DEFINITION. The Instruction Decoder on bytes (rules R80 to R90), the encoder, and the assembler
text of rule R91. The opcode byte alone selects the operation and the length (rules R80, R90). -/

namespace Sys2Proof

/-- What follows the opcode byte (rule R81): nothing, one immediate byte, or a 16-bit immediate. -/
inductive Shape where
  | f1 (i : Instr)
  | f2 (mk : Byte → Instr)
  | f3 (mk : Word → Instr)

/-- The byte length of a format (rule R90). -/
def shapeLength : Shape → Nat
  | .f1 _ => 1
  | .f2 _ => 2
  | .f3 _ => 3

/-- The opcode byte values the spec recommends (rule R86; log entry 7). -/
def defaultOpcodes : Opcodes :=
  { nop := 0x00#8, ldBCd16 := 0x01#8, stBCA := 0x02#8, decB := 0x05#8, ldBd8 := 0x06#8,
    decC := 0x0D#8, ldCd8 := 0x0E#8, ldDEd16 := 0x11#8, stDEA := 0x12#8, decD := 0x15#8,
    ldDd8 := 0x16#8, decE := 0x1D#8, ldEd8 := 0x1E#8, jrNZ := 0x20#8, ldHLd16 := 0x21#8,
    decH := 0x25#8, ldHd8 := 0x26#8, decL := 0x2D#8, ldLd8 := 0x2E#8, ldSPd16 := 0x31#8,
    stHLDecA := 0x32#8, decA := 0x3D#8, ldAd8 := 0x3E#8, stHLB := 0x70#8, stHLC := 0x71#8,
    stHLD := 0x72#8, stHLE := 0x73#8, stHLH := 0x74#8, stHLL := 0x75#8, stHLA := 0x77#8,
    xorB := 0xA8#8, xorC := 0xA9#8, xorD := 0xAA#8, xorE := 0xAB#8, xorH := 0xAC#8,
    xorL := 0xAD#8, xorHL := 0xAE#8, xorA := 0xAF#8, jp := 0xC3#8 }

/-- The rows of the opcode map that R86 lists first, 0x00 to 0x1E. -/
def opcodeRows0 (o : Opcodes) : List (Byte × Shape) :=
  [ (o.nop, .f1 .nop),
    (o.ldBCd16, .f3 .ldBCd16),
    (o.stBCA, .f1 .stBCA),
    (o.decB, .f1 .decB),
    (o.ldBd8, .f2 .ldBd8),
    (o.decC, .f1 .decC),
    (o.ldCd8, .f2 .ldCd8),
    (o.ldDEd16, .f3 .ldDEd16),
    (o.stDEA, .f1 .stDEA),
    (o.decD, .f1 .decD),
    (o.ldDd8, .f2 .ldDd8),
    (o.decE, .f1 .decE),
    (o.ldEd8, .f2 .ldEd8) ]

/-- The rows of the opcode map from 0x20 to 0x3E (rule R86). -/
def opcodeRows2 (o : Opcodes) : List (Byte × Shape) :=
  [ (o.jrNZ, .f2 .jrNZ),
    (o.ldHLd16, .f3 .ldHLd16),
    (o.decH, .f1 .decH),
    (o.ldHd8, .f2 .ldHd8),
    (o.decL, .f1 .decL),
    (o.ldLd8, .f2 .ldLd8),
    (o.ldSPd16, .f3 .ldSPd16),
    (o.stHLDecA, .f1 .stHLDecA),
    (o.decA, .f1 .decA),
    (o.ldAd8, .f2 .ldAd8) ]

/-- The rows of the opcode map from 0x70 to 0xC3 (rule R86). -/
def opcodeRows7 (o : Opcodes) : List (Byte × Shape) :=
  [ (o.stHLB, .f1 .stHLB),
    (o.stHLC, .f1 .stHLC),
    (o.stHLD, .f1 .stHLD),
    (o.stHLE, .f1 .stHLE),
    (o.stHLH, .f1 .stHLH),
    (o.stHLL, .f1 .stHLL),
    (o.stHLA, .f1 .stHLA),
    (o.xorB, .f1 .xorB),
    (o.xorC, .f1 .xorC),
    (o.xorD, .f1 .xorD),
    (o.xorE, .f1 .xorE),
    (o.xorH, .f1 .xorH),
    (o.xorL, .f1 .xorL),
    (o.xorHL, .f1 .xorHL),
    (o.xorA, .f1 .xorA),
    (o.jp, .f3 .jp) ]

/-- The complete opcode map: 39 rows (rule R86), each under its parameter's byte. -/
def opcodeMap (o : Opcodes) : List (Byte × Shape) := opcodeRows0 o ++ opcodeRows2 o ++ opcodeRows7 o

/-- The opcode bytes, in the order of the map. -/
def opcodeBytes (o : Opcodes) : List Byte := (opcodeMap o).map (·.1)

/-- The row of an opcode byte, none if it is unmapped (rules R86, R88). -/
def opcodeRow (o : Opcodes) (op : Byte) : Option Shape := (opcodeMap o).lookup op

/-- The length the opcode byte alone gives (rule R90), none if it is unmapped. -/
def opcodeLength (o : Opcodes) (op : Byte) : Option Nat := (opcodeRow o op).map shapeLength

/-- Why no instruction was decoded. -/
inductive DecodeError where
  /-- An opcode byte with no known mapping (rule R88). -/
  | unmapped (op : Byte)
  /-- The byte list ends before the operand of this opcode: the memory fetch never gives this. -/
  | truncated (op : Byte)
  /-- The byte list is empty: the memory fetch never gives this. -/
  | empty
  deriving DecidableEq, Repr

/-- Decode the first instruction of a list of bytes and give the bytes after it (rules R83, R85). -/
def decode (o : Opcodes) : List Byte → Except DecodeError (Instr × List Byte)
  | [] => .error .empty
  | op :: rest =>
    match opcodeRow o op with
    | none => .error (.unmapped op)
    | some (.f1 i) => .ok (i, rest)
    | some (.f2 mk) =>
      match rest with
      | b1 :: more => .ok (mk b1, more)
      | [] => .error (.truncated op)
    | some (.f3 mk) =>
      match rest with
      | b1 :: b2 :: more => .ok (mk (joinBytes b2 b1), more)
      | _ => .error (.truncated op)

/-- The bytes of a 16-bit immediate, low byte first (rules R60, R83). -/
def immediate16 (v : Word) : List Byte := [loByte v, hiByte v]

/-- The bytes of an instruction (rules R81, R86). -/
def encode (o : Opcodes) : Instr → List Byte
  | .nop         => [o.nop]
  | .ldBCd16 d16 => o.ldBCd16 :: immediate16 d16
  | .stBCA       => [o.stBCA]
  | .decB        => [o.decB]
  | .ldBd8 d8    => [o.ldBd8, d8]
  | .decC        => [o.decC]
  | .ldCd8 d8    => [o.ldCd8, d8]
  | .ldDEd16 d16 => o.ldDEd16 :: immediate16 d16
  | .stDEA       => [o.stDEA]
  | .decD        => [o.decD]
  | .ldDd8 d8    => [o.ldDd8, d8]
  | .decE        => [o.decE]
  | .ldEd8 d8    => [o.ldEd8, d8]
  | .jrNZ e8     => [o.jrNZ, e8]
  | .ldHLd16 d16 => o.ldHLd16 :: immediate16 d16
  | .decH        => [o.decH]
  | .ldHd8 d8    => [o.ldHd8, d8]
  | .decL        => [o.decL]
  | .ldLd8 d8    => [o.ldLd8, d8]
  | .ldSPd16 d16 => o.ldSPd16 :: immediate16 d16
  | .stHLDecA    => [o.stHLDecA]
  | .decA        => [o.decA]
  | .ldAd8 d8    => [o.ldAd8, d8]
  | .stHLB       => [o.stHLB]
  | .stHLC       => [o.stHLC]
  | .stHLD       => [o.stHLD]
  | .stHLE       => [o.stHLE]
  | .stHLH       => [o.stHLH]
  | .stHLL       => [o.stHLL]
  | .stHLA       => [o.stHLA]
  | .xorB        => [o.xorB]
  | .xorC        => [o.xorC]
  | .xorD        => [o.xorD]
  | .xorE        => [o.xorE]
  | .xorH        => [o.xorH]
  | .xorL        => [o.xorL]
  | .xorHL       => [o.xorHL]
  | .xorA        => [o.xorA]
  | .jp a16      => o.jp :: immediate16 a16

/-- The three bytes of a number, the first the least significant: the longest instruction is three
bytes long (rule R80). -/
def tableBytes (nbits w : Nat) : List Byte :=
  let v := w % 2 ^ nbits
  [BitVec.ofNat 8 v, BitVec.ofNat 8 (v / 0x100), BitVec.ofNat 8 (v / 0x10000)]

/-- The instruction the decoder reads from a word of the opcode table, which has the default opcode bytes. -/
def decodeTableWord (nbits w : Nat) : Option Instr :=
  match decode defaultOpcodes (tableBytes nbits w) with
  | .ok (i, _) => some i
  | .error _ => none

/-! Assembler text (rule R91; log entry 14). -/

/-- One hexadecimal digit. -/
def hexDigit (n : Nat) : String :=
  (["0", "1", "2", "3", "4", "5", "6", "7", "8", "9", "A", "B", "C", "D", "E", "F"].getD (n % 16) "?")

/-- `$` and two hexadecimal digits. -/
def hexByte (b : Byte) : String := "$" ++ hexDigit (b.toNat / 16) ++ hexDigit b.toNat

/-- `$` and four hexadecimal digits. -/
def hexWord (v : Word) : String :=
  "$" ++ hexDigit (v.toNat / 0x1000) ++ hexDigit (v.toNat / 0x100) ++ hexDigit (v.toNat / 0x10)
    ++ hexDigit v.toNat

/-- The name of an 8-bit register. -/
def reg8Text : Reg8 → String
  | .a => "A" | .f => "F" | .b => "B" | .c => "C" | .d => "D" | .e => "E" | .h => "H" | .l => "L"

/-- The name of a 16-bit register. -/
def reg16Text : Reg16 → String
  | .af => "AF" | .bc => "BC" | .de => "DE" | .hl => "HL" | .sp => "SP"

/-- A memory operand through a pointer. -/
def pointerText : Pointer → String
  | .bc => "(BC)" | .de => "(DE)" | .hl => "(HL)" | .hlDec => "(HL-)"

/-- An operand as rule R91 writes it; a displacement is written as a signed decimal number. -/
def operandText : Operand → String
  | .reg r     => reg8Text r
  | .pair p    => reg16Text p
  | .pointer p => pointerText p
  | .cond .nz  => "NZ"
  | .imm8 d8   => hexByte d8
  | .imm16 d16 => hexWord d16
  | .disp8 e8  => toString e8.toInt

/-- The mnemonic of an operation kind (rule R91). -/
def kindText : OpKind → String
  | .load16 => "LD" | .load8 => "LD" | .store => "LD" | .dec8 => "DEC" | .xor => "XOR"
  | .jump => "JP" | .jumpRelative => "JR" | .noop => "NOP"

/-- An instruction in assembler syntax: mnemonic, destination, source (rule R91). -/
def asmText (i : Instr) : String :=
  match i.form.operands with
  | [] => kindText i.kind
  | ops => kindText i.kind ++ " " ++ ",".intercalate (ops.map operandText)

/-- The relative jump an assembler emits for a target address, where the target is in reach (rule
R91): `e8 = (T - (address_of_JR + 2)) & 0xFF`. -/
def assembleJrNZ (address target : Word) : Option Instr :=
  let d : Int := (target.toNat : Int) - ((address.toNat : Int) + 2)
  if -128 ≤ d ∧ d ≤ 127 then some (.jrNZ (BitVec.ofInt 8 d)) else none

end Sys2Proof
end

