-- ==== Sys2Proof/Machine/Memory.lean ====
section
/-! DEFINITION. A sparse store of bytes: a list of (key, byte) pairs in one canonical form. `d` is what
an unlisted key holds: `some b` where the spec gives the reset contents, `none` where it gives none
(log entry 3). -/

namespace Sys2Proof.Machine

/-- A store of bytes by key. -/
abbrev Memory := List Host.Cell

/-- What the store holds at a key; `none` where nothing is known of it. -/
def Memory.read (d : Option Byte) (m : Memory) (k : Nat) : Option Byte :=
  match m.lookup k with
  | some v => some v
  | none => d

/-- Put a key that is not listed into its place. -/
def Memory.put (k : Nat) (v : Byte) : Memory → Memory
  | [] => [(k, v)]
  | c :: rest => if k < c.1 then (k, v) :: c :: rest else c :: Memory.put k v rest

/-- Every entry but those of one key. -/
def Memory.drop (k : Nat) (m : Memory) : Memory := m.filter (fun c => c.1 != k)

/-- The store after a byte is written: the value an unlisted key holds is not listed. -/
def Memory.write (d : Option Byte) (m : Memory) (k : Nat) (v : Byte) : Memory :=
  if d = some v then Memory.drop k m else Memory.put k v (Memory.drop k m)

/-- The canonical form: keys strictly rising, and no entry equal to what an unlisted key holds. -/
abbrev Memory.wf (d : Option Byte) (m : Memory) : Prop :=
  m.Pairwise (fun x y => x.1 < y.1) ∧ ∀ c ∈ m, d ≠ some c.2

/-- The bytes of a list, listed from a first key on. -/
def Memory.ofBytes : Nat → List Byte → Memory
  | _, [] => []
  | k, b :: rest => (k, b) :: Memory.ofBytes (k + 1) rest

end Sys2Proof.Machine
end

