-- ==== Sys2Proof/Machine/Parameters.lean ====
section
/-! DEFINITION. The parameters at the values the spec recommends (rule R4; log entry 7). -/

namespace Sys2Proof.Machine

/-- The addresses of the named I/O registers (rule R25, decision D16). -/
def defaultAddresses : IoAddresses :=
  { joyp := 0xFF00#16, sb := 0xFF01#16, sc := 0xFF02#16, div := 0xFF04#16, tima := 0xFF05#16,
    tma := 0xFF06#16, tac := 0xFF07#16, intf := 0xFF0F#16, lcdc := 0xFF40#16, stat := 0xFF41#16,
    scy := 0xFF42#16, scx := 0xFF43#16, ly := 0xFF44#16, lyc := 0xFF45#16, bgp := 0xFF47#16,
    obp0 := 0xFF48#16, obp1 := 0xFF49#16, bootOff := 0xFF50#16,
    audio := [(0xFF10, 0xFF26), (0xFF30, 0xFF3F)] }

/-- The interrupt vectors (rule R186, decision D9). -/
def defaultVectors : Vectors :=
  { vBlank := 0x0040#16, lcdStatus := 0x0048#16, timer := 0x0050#16, serial := 0x0058#16,
    joypad := 0x0060#16 }

/-- Every parameter at its default (rule R4, decisions D2, D8, D14, D15, D25, D27). -/
def defaultParams : Params :=
  { unmappedReadValue := 0xFF#8, imeReset := false, lyPeriod := 154, addr := defaultAddresses,
    vector := defaultVectors, titleOffset := 0x0134, typeOffset := 0x0147, typeNoBanking := 0x00#8,
    typeLinear := 0x01#8, opcodes := defaultOpcodes }

end Sys2Proof.Machine
end

