-- ==== Sys2Proof/Machine/State.lean ====
section
/-! DEFINITION. The state of the block as plain data (rules R10 to R35, R220), why a step can stop, and
the state after reset. -/

namespace Sys2Proof.Machine

/-- The four flags, which are all of register F that is stored (rule R15; log entry 10). -/
structure Flags where
  z : Bool  -- Zero, bit 7
  n : Bool  -- Subtraction, bit 6
  h : Bool  -- Half-Carry, bit 5
  c : Bool  -- Carry, bit 4
  deriving DecidableEq, Repr

/-- The Register File (rules R10, R13, R14). -/
structure Regs where
  a : Byte
  f : Flags
  b : Byte
  c : Byte
  d : Byte
  e : Byte
  h : Byte
  l : Byte
  sp : Word
  pc : Word
  deriving DecidableEq, Repr

/-- The named I/O registers that are one byte each (rule R25). -/
inductive IoReg where
  | joyp | sb | sc | div | tima | tma | tac | intf | lcdc | stat | scy | scx | ly | lyc
  | bgp | obp0 | obp1 | bootOff
  deriving DecidableEq, Repr

/-- The memory-mapped registers (rules R24 to R31). -/
structure Io where
  joyp : Byte
  sb : Byte
  sc : Byte
  div : Byte
  tima : Byte
  tma : Byte
  tac : Byte
  intf : Byte      -- IF, the interrupt-request register
  lcdc : Byte
  stat : Byte
  scy : Byte
  scx : Byte
  ly : Byte
  lyc : Byte
  bgp : Byte
  obp0 : Byte
  obp1 : Byte
  bootOff : Byte   -- BOOT_OFF
  audio : Memory   -- AUDIO[a], keyed by address; an unlisted cell holds 0x00
  ie : Byte        -- IE, at 0xFFFF
  deriving DecidableEq, Repr

/-- The loaded cartridge (rules R66, R67): `FIXED_BANK` and `SWITCH_BANK[1..N]` are slices of the image. -/
structure Cartridge where
  image : Memory           -- IMAGE, keyed by offset; an unlisted offset is as the host's image has it
  length : Nat             -- len(IMAGE)
  controller : Controller
  deriving DecidableEq, Repr

/-- A fatal fault as the latch records it (rules R22, R181, R182). -/
inductive FatalFault where
  | decodeFault (op : Byte) (addr : Word)
  | executeFault (kind : OpKind) (pc : Word)
  deriving DecidableEq, Repr

/-- The event of a write to an address with no handler (rule R183). -/
structure MemoryFault where
  addr : Word
  deriving DecidableEq, Repr

/-- The state of the block: the table of 10_state.md section 1, the ROM buffers of rule R220, the parameters it
was constructed with (rule R4), and the model's own `events` and `oracle`. -/
structure State where
  params : Params             -- configuration: no rule changes it (rule R4)
  regs : Regs
  ime : Bool                  -- IME (rule R19)
  bank : Byte                 -- BANK (rule R20)
  latch : Option FatalFault   -- the fault latch (rule R22)
  ram : Memory                -- VRAM, ERAM, WRAM0, WRAM1, OAM, HRAM, keyed by address (rule R23)
  io : Io
  cart : Cartridge
  boot : Memory               -- BOOT_ROM, keyed by offset (rule R23)
  events : List MemoryFault   -- the events of the step that led here (rule R8; log entry 9)
  oracle : Nat                -- how many free bytes have been read (rule R48; log entry 2)
  deriving DecidableEq, Repr

/-- Why the machine stops. -/
inductive Fault where
  /-- Raised by `step` when the byte at PC is an unmapped opcode (rule R181). `after` is the state the
  spec gives after it: the latch set, nothing else changed. Safe: the spec's own outcome. -/
  | decodeFault (op : Byte) (addr : Word) (after : State)
  /-- The execute fatal of rule R182. No instruction raises it: every operation kind has its meaning.
  Safe: the spec's own outcome. -/
  | executeFault (kind : OpKind) (pc : Word) (after : State)
  /-- Raised by `step` in a state whose latch is set: no step exists (rules R8, R22, R224). Safe: the
  spec's own stop. -/
  | halted (f : FatalFault)
  deriving DecidableEq, Repr

/-- Why a step is refused. -/
inductive Refusal where
  /-- Raised by `exec` for an instruction that has no meaning yet: no arm of `exec` does. Safe. -/
  | notModelled (mnemonic : String)
  deriving DecidableEq, Repr

/-- The outcome of a step or of an instruction (rule R8). -/
abbrev Outcome := Host.Outcome State Fault Refusal

/-- The Register File after reset: zeroed (rule R33). -/
def resetRegs : Regs :=
  { a := 0x00#8, f := ⟨false, false, false, false⟩, b := 0x00#8, c := 0x00#8, d := 0x00#8,
    e := 0x00#8, h := 0x00#8, l := 0x00#8, sp := 0x0000#16, pc := 0x0000#16 }

/-- The memory-mapped registers after reset: zero (rule R34). -/
def resetIo : Io :=
  { joyp := 0x00#8, sb := 0x00#8, sc := 0x00#8, div := 0x00#8, tima := 0x00#8, tma := 0x00#8,
    tac := 0x00#8, intf := 0x00#8, lcdc := 0x00#8, stat := 0x00#8, scy := 0x00#8, scx := 0x00#8,
    ly := 0x00#8, lyc := 0x00#8, bgp := 0x00#8, obp0 := 0x00#8, obp1 := 0x00#8, bootOff := 0x00#8,
    audio := [], ie := 0x00#8 }

/-- The state after reset with given parameters, cartridge and boot program (rules R34, R220). -/
def State.resetWith (p : Params) (cart : Cartridge) (boot : Memory) : State :=
  { params := p, regs := resetRegs, ime := p.imeReset, bank := 0x01#8, latch := none, ram := [],
    io := resetIo, cart := cart, boot := boot, events := [], oracle := 0 }

/-- The cartridge of which nothing is known but that it was loaded (log entries 5, 6). -/
def anyCartridge : Cartridge :=
  { image := [], length := Config.bankSize + Config.imageExtra, controller := Config.resetController }

/-- The machine right after reset with the default parameters (log entry 7), whatever cartridge and boot program
the host loaded (rule R220). -/
def State.reset : State := State.resetWith defaultParams anyCartridge []

end Sys2Proof.Machine
end

