-- ==== Sys2Proof/Machine/Flags.lean ====
section
/-! DEFINITION. Register F and every flag computation the spec gives (rules R15, R16, R140, R150). -/

namespace Sys2Proof.Machine

/-- The byte of F: Z N H C in bits 7 6 5 4, the low nibble zero (rule R15). -/
def flagsByte (f : Flags) : Byte :=
  (BitVec.ofBool f.z ++ BitVec.ofBool f.n ++ BitVec.ofBool f.h ++ BitVec.ofBool f.c ++ 0b0000#4 : BitVec 8)

/-- What a write of a byte to F stores: its upper nibble (rule R15). -/
def flagsOfByte (v : Byte) : Flags :=
  { z := v.getLsbD 7, n := v.getLsbD 6, h := v.getLsbD 5, c := v.getLsbD 4 }

/-- The flags after a decrement of `v`: Z by the result, N set, H if the low nibble of `v` was zero, C
kept (rule R140). -/
def decFlags (v : Byte) (old : Flags) : Flags :=
  { z := (v - 1#8 == 0x00#8), n := true, h := (v &&& 0x0F#8 == 0x00#8), c := old.c }

/-- The flags after an exclusive-or with result `res`: Z by the result, the others clear (rule R150). -/
def xorFlags (res : Byte) : Flags :=
  { z := (res == 0x00#8), n := false, h := false, c := false }

end Sys2Proof.Machine
end

