-- ==== Sys2Proof/Machine/Ops.lean ====
section
/-! DEFINITION. The named operations over registers, memory, the interrupt controller and the
decoder's fetch. -/

namespace Sys2Proof.Machine

/-! Registers (rules R10 to R16). -/

/-- `x[r]` in the Register File. -/
def Regs.get8 (g : Regs) : Reg8 → Byte
  | .a => g.a
  | .f => flagsByte g.f
  | .b => g.b
  | .c => g.c
  | .d => g.d
  | .e => g.e
  | .h => g.h
  | .l => g.l

/-- `x[r] <- v` in the Register File (rules R10, R15). -/
def Regs.set8 (g : Regs) (r : Reg8) (v : Byte) : Regs :=
  match r with
  | .a => { g with a := v }
  | .f => { g with f := flagsOfByte v }
  | .b => { g with b := v }
  | .c => { g with c := v }
  | .d => { g with d := v }
  | .e => { g with e := v }
  | .h => { g with h := v }
  | .l => { g with l := v }

/-- `xx[p]`: the first-named register is the high byte (rule R11). -/
def Regs.get16 (g : Regs) : Reg16 → Word
  | .af => joinBytes (g.get8 .a) (g.get8 .f)
  | .bc => joinBytes (g.get8 .b) (g.get8 .c)
  | .de => joinBytes (g.get8 .d) (g.get8 .e)
  | .hl => joinBytes (g.get8 .h) (g.get8 .l)
  | .sp => g.sp

/-- `xx[p] <- v` (rules R11, R13). -/
def Regs.set16 (g : Regs) (p : Reg16) (v : Word) : Regs :=
  match p with
  | .af => (g.set8 .a (hiByte v)).set8 .f (loByte v)
  | .bc => (g.set8 .b (hiByte v)).set8 .c (loByte v)
  | .de => (g.set8 .d (hiByte v)).set8 .e (loByte v)
  | .hl => (g.set8 .h (hiByte v)).set8 .l (loByte v)
  | .sp => { g with sp := v }

/-- `x[r]`. -/
def State.get8 (s : State) (r : Reg8) : Byte := s.regs.get8 r

/-- `xx[p]`. -/
def State.get16 (s : State) (p : Reg16) : Word := s.regs.get16 p

/-- `x[r] <- v`. -/
def State.set8 (s : State) (r : Reg8) (v : Byte) : State := { s with regs := s.regs.set8 r v }

/-- `xx[p] <- v`. -/
def State.set16 (s : State) (p : Reg16) (v : Word) : State := { s with regs := s.regs.set16 p v }

/-- `pc <- t`. -/
def State.setPc (s : State) (t : Word) : State := { s with regs := { s.regs with pc := t } }

/-- `pc <- pc +16 n`, modulo 65536 (rule R14). -/
def State.advance (s : State) (n : Nat) : State := s.setPc (s.regs.pc + BitVec.ofNat 16 n)

/-- A write of all four flags. -/
def State.setFlags (s : State) (f : Flags) : State := { s with regs := { s.regs with f := f } }

/-! The other parts of the state. -/

def State.setIme (s : State) (v : Bool) : State := { s with ime := v }
def State.setBank (s : State) (v : Byte) : State := { s with bank := v }
def State.setLatch (s : State) (v : Option FatalFault) : State := { s with latch := v }
def State.setRam (s : State) (v : Memory) : State := { s with ram := v }
def State.setIo (s : State) (v : Io) : State := { s with io := v }
def State.setCart (s : State) (v : Cartridge) : State := { s with cart := v }
def State.setBoot (s : State) (v : Memory) : State := { s with boot := v }
def State.setEvents (s : State) (v : List MemoryFault) : State := { s with events := v }
def State.setOracle (s : State) (v : Nat) : State := { s with oracle := v }

/-- `emit MemoryFault(addr)` (rules R6, R183): events stand in the order of the writes (rule R193). -/
def State.emit (s : State) (e : MemoryFault) : State := s.setEvents (s.events ++ [e])

/-- A step begins with no events: they are not remembered (rule R183; log entry 9). -/
def State.clearEvents (s : State) : State := s.setEvents []

/-! The memory map (rules R40, R41). -/

/-- The regions of rule R41; the boot overlay lies over the lowest bytes of `fixedRom`. -/
inductive Region where
  | fixedRom | switchRom | vram | eram | wram0 | wram1 | unbacked | oam | prohibited | io | hram | ie
  deriving DecidableEq, Repr

/-- The region of an address (rule R41). -/
def region (a : Word) : Region :=
  if a.toNat ≤ 0x3FFF then .fixedRom
  else if a.toNat ≤ 0x7FFF then .switchRom
  else if a.toNat ≤ 0x9FFF then .vram
  else if a.toNat ≤ 0xBFFF then .eram
  else if a.toNat ≤ 0xCFFF then .wram0
  else if a.toNat ≤ 0xDFFF then .wram1
  else if a.toNat ≤ 0xFDFF then .unbacked
  else if a.toNat ≤ 0xFE9F then .oam
  else if a.toNat ≤ 0xFEFF then .prohibited
  else if a.toNat ≤ 0xFF7F then .io
  else if a.toNat ≤ 0xFFFE then .hram
  else .ie

/-- The plain read/write regions (rules R23, R46). -/
def isRamRegion : Region → Bool
  | .vram | .eram | .wram0 | .wram1 | .oam | .hram => true
  | .fixedRom | .switchRom | .unbacked | .prohibited | .io | .ie => false

/-- An address of `AUDIO_RANGE` (rule R25). -/
def isAudio (d : IoAddresses) (a : Word) : Bool := d.audio.any (fun r => r.1 ≤ a.toNat && a.toNat ≤ r.2)

/-- The address of a named register (rule R25). -/
def ioAddr (d : IoAddresses) : IoReg → Word
  | .joyp    => d.joyp
  | .sb      => d.sb
  | .sc      => d.sc
  | .div     => d.div
  | .tima    => d.tima
  | .tma     => d.tma
  | .tac     => d.tac
  | .intf    => d.intf
  | .lcdc    => d.lcdc
  | .stat    => d.stat
  | .scy     => d.scy
  | .scx     => d.scx
  | .ly      => d.ly
  | .lyc     => d.lyc
  | .bgp     => d.bgp
  | .obp0    => d.obp0
  | .obp1    => d.obp1
  | .bootOff => d.bootOff

/-- Every named register. -/
def allIoRegs : List IoReg :=
  [.joyp, .sb, .sc, .div, .tima, .tma, .tac, .intf, .lcdc, .stat, .scy, .scx, .ly, .lyc, .bgp, .obp0,
   .obp1, .bootOff]

/-- The named register at an address, if there is one (rule R25). -/
def ioRegAt (d : IoAddresses) (a : Word) : Option IoReg := allIoRegs.find? (fun r => ioAddr d r == a)

/-- The stored value of a named register. -/
def Io.get (x : Io) : IoReg → Byte
  | .joyp    => x.joyp
  | .sb      => x.sb
  | .sc      => x.sc
  | .div     => x.div
  | .tima    => x.tima
  | .tma     => x.tma
  | .tac     => x.tac
  | .intf    => x.intf
  | .lcdc    => x.lcdc
  | .stat    => x.stat
  | .scy     => x.scy
  | .scx     => x.scx
  | .ly      => x.ly
  | .lyc     => x.lyc
  | .bgp     => x.bgp
  | .obp0    => x.obp0
  | .obp1    => x.obp1
  | .bootOff => x.bootOff

/-- Store a byte in a named register, whole. -/
def Io.set (x : Io) (r : IoReg) (v : Byte) : Io :=
  match r with
  | .joyp    => { x with joyp := v }
  | .sb      => { x with sb := v }
  | .sc      => { x with sc := v }
  | .div     => { x with div := v }
  | .tima    => { x with tima := v }
  | .tma     => { x with tma := v }
  | .tac     => { x with tac := v }
  | .intf    => { x with intf := v }
  | .lcdc    => { x with lcdc := v }
  | .stat    => { x with stat := v }
  | .scy     => { x with scy := v }
  | .scx     => { x with scx := v }
  | .ly      => { x with ly := v }
  | .lyc     => { x with lyc := v }
  | .bgp     => { x with bgp := v }
  | .obp0    => { x with obp0 := v }
  | .obp1    => { x with obp1 := v }
  | .bootOff => { x with bootOff := v }

/-! Cartridge and boot program (rules R44, R45, R64, R66). -/

/-- `N`, the number of switchable banks: `ceil(len(IMAGE) / 0x4000) - 1` (rule R66). -/
def bankCount (s : State) : Nat := (s.cart.length + (Config.bankSize - 1)) / Config.bankSize - 1

/-- The byte at an image offset: 0x00 beyond the end of the image (rules R45, R66). -/
def imageAt (s : State) (offset : Nat) : Byte :=
  if offset < s.cart.length then
    (Memory.read none s.cart.image offset).getD (Config.imageByte offset)
  else 0x00#8

/-- `BOOT_ROM[offset]`. -/
def bootAt (s : State) (offset : Nat) : Byte :=
  (Memory.read none s.boot offset).getD (Config.bootByte offset)

/-- The boot overlay is active while BOOT_OFF is zero (rules R21, R30). -/
def overlayActive (s : State) : Bool := s.io.bootOff == 0x00#8

/-- The image offset an address in 0x4000..0x7FFF stands for (rule R64). -/
def switchOffset (s : State) (a : Word) : Nat := s.bank.toNat * Config.bankSize + (a.toNat - 0x4000)

/-! Byte read (rules R43 to R48). -/

/-- Read in 0x0000..0x3FFF (rule R44). -/
def readFixedRom (s : State) (a : Word) : Byte :=
  if a.toNat < Config.bootSize ∧ overlayActive s = true then bootAt s a.toNat else imageAt s a.toNat

/-- Read in 0x4000..0x7FFF (rule R45). -/
def readSwitchRom (s : State) (a : Word) : Byte :=
  if bankCount s = 0 then s.params.unmappedReadValue else imageAt s (switchOffset s a)

/-- Read in a RAM region (rules R35, R46). -/
def readRam (s : State) (a : Word) : Byte :=
  (Memory.read none s.ram a.toNat).getD (Config.ramByte a.toNat)

/-- A cell of AUDIO (rule R31): 0x00 until it is written (rule R34). -/
def audioAt (x : Io) (a : Word) : Byte := (Memory.read (some 0x00#8) x.audio a.toNat).getD 0x00#8

/-- Read in the I/O window (rules R32, R48). -/
def readIo (s : State) (a : Word) : Byte :=
  match ioRegAt s.params.addr a with
  | some r => s.io.get r
  | none => if isAudio s.params.addr a then audioAt s.io a else s.params.unmappedReadValue

/-- `read_byte(addr)`: total, and no state changes (rule R43). -/
def readByte (s : State) (a : Word) : Byte :=
  match region a with
  | .fixedRom   => readFixedRom s a
  | .switchRom  => readSwitchRom s a
  | .vram | .eram | .wram0 | .wram1 | .oam | .hram => readRam s a
  | .unbacked   => s.params.unmappedReadValue
  | .prohibited => Config.prohibitedByte s.oracle a
  | .io         => readIo s a
  | .ie         => s.io.ie

/-- The state a CPU read leaves: a read of the prohibited range uses one free byte up (rule R48; log
entry 2); nothing of the spec's state changes. -/
def afterRead (s : State) (a : Word) : State :=
  match region a with
  | .prohibited => s.setOracle (s.oracle + 1)
  | _ => s

/-- `read_word(addr)` (rule R58): the host's view, which changes nothing. -/
def readWord (s : State) (a : Word) : Word := joinBytes (readByte s (a + 1#16)) (readByte s a)

/-! Byte write (rules R49 to R57). -/

/-- The bank a written byte selects: a clamp into 1..N (rule R52). -/
def clampBank (n : Nat) (v : Byte) : Byte :=
  if n = 0 then 0x01#8
  else if v = 0x00#8 then 0x01#8
  else if n < v.toNat then BitVec.ofNat 8 n
  else v

/-- Write in 0x4000..0x7FFF (rules R51, R52). -/
def writeBank (s : State) (v : Byte) : State :=
  match s.cart.controller with
  | .noBanking => s
  | .linearBanked => s.setBank (clampBank (bankCount s) v)

/-- Write in a RAM region (rule R53). -/
def writeRam (s : State) (a : Word) (v : Byte) : State :=
  s.setRam (Memory.write none s.ram a.toNat v)

/-- What STAT holds after a CPU write: bits 2..0 are kept (rules R28, R56). -/
def statAfterWrite (old v : Byte) : Byte := (old &&& 0x07#8) ||| (v &&& 0xF8#8)

/-- A CPU write to a named register (rule R56). -/
def writeIoReg (x : Io) (r : IoReg) (v : Byte) : Io :=
  match r with
  | .div  => x.set .div 0x00#8
  | .stat => x.set .stat (statAfterWrite x.stat v)
  | .ly   => x
  | .joyp | .sb | .sc | .tima | .tma | .tac | .intf | .lcdc | .scy | .scx | .lyc | .bgp | .obp0
  | .obp1 | .bootOff => x.set r v

/-- A CPU write to a cell of AUDIO (rule R31). -/
def writeAudio (x : Io) (a : Word) (v : Byte) : Io :=
  { x with audio := Memory.write (some 0x00#8) x.audio a.toNat v }

/-- Write in the I/O window (rules R32, R56). -/
def writeIo (s : State) (a : Word) (v : Byte) : State :=
  match ioRegAt s.params.addr a with
  | some r => s.setIo (writeIoReg s.io r v)
  | none => if isAudio s.params.addr a then s.setIo (writeAudio s.io a v) else s

/-- `write_byte(addr, v)`: success, or MemoryFault with nothing stored (rule R49). -/
def writeByte (s : State) (a : Word) (v : Byte) : Except MemoryFault State :=
  match region a with
  | .fixedRom   => .ok s
  | .switchRom  => .ok (writeBank s v)
  | .vram | .eram | .wram0 | .wram1 | .oam | .hram => .ok (writeRam s a v)
  | .unbacked   => .error ⟨a⟩
  | .prohibited => .ok s
  | .io         => .ok (writeIo s a v)
  | .ie         => .ok (s.setIo { s.io with ie := v })

/-- `MemWrite(addr, 1, v)`: a MemoryFault is an event and execution goes on (rules R6, R183). -/
def memWrite (s : State) (a : Word) (v : Byte) : State :=
  match writeByte s a v with
  | .ok t => t
  | .error e => s.emit e

/-- `MemWrite(addr, 2, v)`: the low address first (rule R59). -/
def memWriteWord (s : State) (a v : Word) : State :=
  memWrite (memWrite s a (loByte v)) (a + 1#16) (hiByte v)

/-! The interrupt controller (rules R186 to R193). -/

/-- The five interrupt sources (rule R186). -/
inductive Interrupt where
  | vBlank | lcdStatus | timer | serial | joypad
  deriving DecidableEq, Repr

/-- The bit of a source in IE and IF (rule R186). -/
def interruptBit : Interrupt → Nat
  | .vBlank => 0
  | .lcdStatus => 1
  | .timer => 2
  | .serial => 3
  | .joypad => 4

/-- `1 << n` (rules R186, R188). -/
def interruptMask (n : Interrupt) : Byte := 1#8 <<< interruptBit n

/-- `VECTOR[n]` (rule R186). -/
def interruptVector (v : Vectors) : Interrupt → Word
  | .vBlank => v.vBlank
  | .lcdStatus => v.lcdStatus
  | .timer => v.timer
  | .serial => v.serial
  | .joypad => v.joypad

/-- Every source, in order of priority (rule R193). -/
def allInterrupts : List Interrupt := [.vBlank, .lcdStatus, .timer, .serial, .joypad]

/-- `is_enabled(n)` (rule R187). -/
def isEnabled (s : State) (n : Interrupt) : Bool := s.io.ie.getLsbD (interruptBit n)

/-- `is_requested(n)` (rule R187). -/
def isRequested (s : State) (n : Interrupt) : Bool := s.io.intf.getLsbD (interruptBit n)

/-- `request_interrupt(n)` (rule R188). -/
def requestInterrupt (s : State) (n : Interrupt) : State :=
  s.setIo (s.io.set .intf (s.io.intf ||| interruptMask n))

/-- `clear_interrupt(n)` (rule R189). -/
def clearInterrupt (s : State) (n : Interrupt) : State :=
  s.setIo (s.io.set .intf (s.io.intf &&& ~~~ interruptMask n))

/-- `any_interrupt_pending()` (rule R190). -/
def anyInterruptPending (s : State) : Bool := s.io.ie &&& s.io.intf &&& 0x1F#8 != 0x00#8

/-- The source that is serviced: the enabled and requested one with the lowest bit number (rule R193). -/
def firstPending (s : State) : Option Interrupt :=
  allInterrupts.find? (fun n => isEnabled s n && isRequested s n)

/-- Taking an interrupt (rule R192): the request cleared, IME cleared, PC pushed, PC at the vector. There
is no return from it (rule R194). -/
def takeInterrupt (s : State) (n : Interrupt) : State :=
  let s1 := (clearInterrupt s n).setIme false
  let s2 := s1.set16 .sp (s1.get16 .sp - 2#16)
  (memWriteWord s2 (s2.get16 .sp) s2.regs.pc).setPc (interruptVector s.params.vector n)

/-- An interrupt is taken at this step boundary (rule R191). -/
def interruptDue (s : State) : Bool := s.ime && anyInterruptPending s

/-- Interrupt service (rule R192). -/
def serviceInterrupt (s : State) : State :=
  match firstPending s with
  | some n => takeInterrupt s n
  | none => s

/-! Fatal faults (rules R181, R182). -/

/-- `raise DecodeFault(op, addr)`: the latch is set and nothing else changes (rule R181). -/
def raiseDecodeFault (op : Byte) (addr : Word) (s : State) : Outcome :=
  .fault (.decodeFault op addr (s.setLatch (some (.decodeFault op addr))))

/-- `raise ExecuteFault(kind, pc)` (rule R182): no instruction of this instruction set raises it. -/
def raiseExecuteFault (kind : OpKind) (s : State) : Outcome :=
  .fault (.executeFault kind s.regs.pc (s.setLatch (some (.executeFault kind s.regs.pc))))

/-! The decoder's fetch (rules R70, R83, R85). -/

/-- The `n` bytes from an address on, read one at a time, and the state the reads leave. -/
def readBytes (s : State) (a : Word) : Nat → List Byte × State
  | 0 => ([], s)
  | n + 1 =>
    let more := readBytes (afterRead s a) (a + 1#16) n
    (readByte s a :: more.1, more.2)

/-- What a fetch finds: an instruction, or an unmapped opcode and where it stands; and the state the reads leave. -/
inductive Fetched where
  | instr (i : Instr) (s : State)
  | unmapped (op : Byte) (addr : Word) (s : State)

/-- `decode(address_space, address)`: the opcode byte, then as many operand bytes as its row has, and none
beyond the opcode if it is unmapped (rule R85). -/
def fetch (s : State) (a : Word) : Fetched :=
  let op := readByte s a
  match opcodeLength s.params.opcodes op with
  | none => .unmapped op a (afterRead s a)
  | some n =>
    let more := readBytes (afterRead s a) (a + 1#16) (n - 1)
    match decode s.params.opcodes (op :: more.1) with
    | .ok (i, _) => .instr i more.2
    | .error _ => .unmapped op a more.2

/-- The host's call of `decode` at any address: the instruction, or DecodeFault with the byte and its address,
which sets no latch (rules R85, R230). -/
def decodeAt (s : State) (a : Word) : Except FatalFault Instr :=
  match fetch s a with
  | .instr i _ => .ok i
  | .unmapped op addr _ => .error (.decodeFault op addr)

end Sys2Proof.Machine
end

