-- ==== Sys2Proof/Machine/Operands.lean ====
section
/-! DEFINITION. The operand forms of rule R84 at run time: a pointer's address and what its use does to
it, a register source, the memory source of `XOR A,(HL)`. -/

namespace Sys2Proof.Machine

/-- The pair a pointer form names (rule R84). -/
def pointerPair : Pointer → Reg16
  | .bc => .bc
  | .de => .de
  | .hl => .hl
  | .hlDec => .hl

/-- The address a pointer form gives: the pair's value (rule R120). -/
def pointerAddress (s : State) (p : Pointer) : Word := s.get16 (pointerPair p)

/-- What the use of a pointer does after the access: (HL-) decrements HL modulo 65536 (rules R120, R123). -/
def afterPointer (s : State) (p : Pointer) : State :=
  match p with
  | .hlDec => s.set16 .hl (s.get16 .hl - 1#16)
  | .bc => s
  | .de => s
  | .hl => s

/-- The byte at the address in HL, and the state its read leaves (rule R163). -/
def memorySource (s : State) : Byte × State :=
  (readByte s (s.get16 .hl), afterRead s (s.get16 .hl))

/-- The condition "not-zero" holds when the Zero flag is clear (rule R171). -/
def condHolds (s : State) : Cond → Bool
  | .nz => !s.regs.f.z

end Sys2Proof.Machine
end

