-- ==== Sys2Proof/Machine/Alu.lean ====
section
/-! DEFINITION. The ALU instructions: 8-bit decrement (rules R140 to R147) and exclusive-or with the
accumulator (rules R150 to R157, R163). -/

namespace Sys2Proof.Machine

/-- 8-bit decrement (rule R140): modulo 256; the other register of the pair is not touched. -/
def decrement (r : Reg8) (s : State) : Outcome :=
  .next (((s.set8 r (s.get8 r - 1#8)).setFlags (decFlags (s.get8 r) s.regs.f)).advance 1)

/-- Exclusive-or of the accumulator with a byte (rules R150, R163). -/
def xorWith (v : Byte) (s : State) : Outcome :=
  .next (((s.set8 .a (s.get8 .a ^^^ v)).setFlags (xorFlags (s.get8 .a ^^^ v))).advance 1)

/-- `DEC B` (rule R141). -/
def execDecB (s : State) : Outcome := decrement .b s

/-- `DEC C` (rule R142). -/
def execDecC (s : State) : Outcome := decrement .c s

/-- `DEC D` (rule R143). -/
def execDecD (s : State) : Outcome := decrement .d s

/-- `DEC E` (rule R144). -/
def execDecE (s : State) : Outcome := decrement .e s

/-- `DEC H` (rule R145). -/
def execDecH (s : State) : Outcome := decrement .h s

/-- `DEC L` (rule R146). -/
def execDecL (s : State) : Outcome := decrement .l s

/-- `DEC A` (rule R147). -/
def execDecA (s : State) : Outcome := decrement .a s

/-- `XOR A,B` (rule R151). -/
def execXorB (s : State) : Outcome := xorWith (s.get8 .b) s

/-- `XOR A,C` (rule R152). -/
def execXorC (s : State) : Outcome := xorWith (s.get8 .c) s

/-- `XOR A,D` (rule R153). -/
def execXorD (s : State) : Outcome := xorWith (s.get8 .d) s

/-- `XOR A,E` (rule R154). -/
def execXorE (s : State) : Outcome := xorWith (s.get8 .e) s

/-- `XOR A,H` (rule R155). -/
def execXorH (s : State) : Outcome := xorWith (s.get8 .h) s

/-- `XOR A,L` (rule R156). -/
def execXorL (s : State) : Outcome := xorWith (s.get8 .l) s

/-- `XOR A,A` (rule R157). -/
def execXorA (s : State) : Outcome := xorWith (s.get8 .a) s

/-- `XOR A,(HL)` (rule R163): the byte is read from memory, which never faults. -/
def execXorHL (s : State) : Outcome := xorWith (memorySource s).1 (memorySource s).2

end Sys2Proof.Machine
end

