-- ==== Sys2Proof/Machine/Control.lean ====
section
/-! DEFINITION. Control transfer and no-op (rules R170 to R172). -/

namespace Sys2Proof.Machine

/-- `JP a16` (rule R170): the length advance is not applied. -/
def execJp (a16 : Word) (s : State) : Outcome := .next (s.setPc a16)

/-- Conditional relative jump (rule R171): past the instruction first, then by the displacement if the
condition holds. -/
def jumpRelative (c : Cond) (e8 : Byte) (s : State) : Outcome :=
  if condHolds s c then .next ((s.advance 2).setPc ((s.advance 2).regs.pc + sext16 e8))
  else .next (s.advance 2)

/-- `JR NZ,e8` (rule R171). -/
def execJrNZ (e8 : Byte) (s : State) : Outcome := jumpRelative .nz e8 s

/-- `NOP` (rule R172). -/
def execNop (s : State) : Outcome := .next (s.advance 1)

end Sys2Proof.Machine
end

