-- ==== Sys2Proof/Machine/Loads.lean ====
section
/-! DEFINITION. Immediate loads (rules R100 to R112). -/

namespace Sys2Proof.Machine

/-- 16-bit immediate load (rule R100): the pair takes the immediate, no flag is written. -/
def load16 (p : Reg16) (d16 : Word) (s : State) : Outcome := .next ((s.set16 p d16).advance 3)

/-- 8-bit immediate load (rule R105): the register takes the immediate, no flag is written. -/
def load8 (r : Reg8) (d8 : Byte) (s : State) : Outcome := .next ((s.set8 r d8).advance 2)

/-- `LD BC,d16` (rule R101). -/
def execLdBCd16 (d16 : Word) (s : State) : Outcome := load16 .bc d16 s

/-- `LD DE,d16` (rule R102). -/
def execLdDEd16 (d16 : Word) (s : State) : Outcome := load16 .de d16 s

/-- `LD HL,d16` (rule R103). -/
def execLdHLd16 (d16 : Word) (s : State) : Outcome := load16 .hl d16 s

/-- `LD SP,d16` (rule R104). -/
def execLdSPd16 (d16 : Word) (s : State) : Outcome := load16 .sp d16 s

/-- `LD B,d8` (rule R106). -/
def execLdBd8 (d8 : Byte) (s : State) : Outcome := load8 .b d8 s

/-- `LD C,d8` (rule R107). -/
def execLdCd8 (d8 : Byte) (s : State) : Outcome := load8 .c d8 s

/-- `LD D,d8` (rule R108). -/
def execLdDd8 (d8 : Byte) (s : State) : Outcome := load8 .d d8 s

/-- `LD E,d8` (rule R109). -/
def execLdEd8 (d8 : Byte) (s : State) : Outcome := load8 .e d8 s

/-- `LD H,d8` (rule R110). -/
def execLdHd8 (d8 : Byte) (s : State) : Outcome := load8 .h d8 s

/-- `LD L,d8` (rule R111). -/
def execLdLd8 (d8 : Byte) (s : State) : Outcome := load8 .l d8 s

/-- `LD A,d8` (rule R112). -/
def execLdAd8 (d8 : Byte) (s : State) : Outcome := load8 .a d8 s

end Sys2Proof.Machine
end

