-- ==== Sys2Proof/Machine/Stores.lean ====
section
/-! DEFINITION. Stores through a 16-bit pointer register (rules R120 to R130). -/

namespace Sys2Proof.Machine

/-- Store through a pointer (rule R120): one byte written at the pointer's address, which may emit a
MemoryFault; then the pointer's own update; no flag is written. -/
def storeThrough (p : Pointer) (r : Reg8) (s : State) : Outcome :=
  .next ((afterPointer (memWrite s (pointerAddress s p) (s.get8 r)) p).advance 1)

/-- `LD (BC),A` (rule R121). -/
def execStBCA (s : State) : Outcome := storeThrough .bc .a s

/-- `LD (DE),A` (rule R122). -/
def execStDEA (s : State) : Outcome := storeThrough .de .a s

/-- `LD (HL-),A` (rule R123). -/
def execStHLDecA (s : State) : Outcome := storeThrough .hlDec .a s

/-- `LD (HL),B` (rule R124). -/
def execStHLB (s : State) : Outcome := storeThrough .hl .b s

/-- `LD (HL),C` (rule R125). -/
def execStHLC (s : State) : Outcome := storeThrough .hl .c s

/-- `LD (HL),D` (rule R126). -/
def execStHLD (s : State) : Outcome := storeThrough .hl .d s

/-- `LD (HL),E` (rule R127). -/
def execStHLE (s : State) : Outcome := storeThrough .hl .e s

/-- `LD (HL),H` (rule R128). -/
def execStHLH (s : State) : Outcome := storeThrough .hl .h s

/-- `LD (HL),L` (rule R129). -/
def execStHLL (s : State) : Outcome := storeThrough .hl .l s

/-- `LD (HL),A` (rule R130). -/
def execStHLA (s : State) : Outcome := storeThrough .hl .a s

end Sys2Proof.Machine
end

