-- ==== Sys2Proof/Machine/Dispatch.lean ====
section
/-! DEFINITION. The Execution Engine: one arm for each instruction, in the order of the opcode table. -/

namespace Sys2Proof.Machine

-- The meaning of a decoded instruction (rule R3), run at the address in PC.
def exec (i : Instr) (s : State) : Host.Outcome State Fault Refusal :=
  match i with
  | .nop => Sys2Proof.Machine.execNop s
  | .ldBCd16 d16 => Sys2Proof.Machine.execLdBCd16 d16 s
  | .stBCA => Sys2Proof.Machine.execStBCA s
  | .decB => Sys2Proof.Machine.execDecB s
  | .ldBd8 d8 => Sys2Proof.Machine.execLdBd8 d8 s
  | .decC => Sys2Proof.Machine.execDecC s
  | .ldCd8 d8 => Sys2Proof.Machine.execLdCd8 d8 s
  | .ldDEd16 d16 => Sys2Proof.Machine.execLdDEd16 d16 s
  | .stDEA => Sys2Proof.Machine.execStDEA s
  | .decD => Sys2Proof.Machine.execDecD s
  | .ldDd8 d8 => Sys2Proof.Machine.execLdDd8 d8 s
  | .decE => Sys2Proof.Machine.execDecE s
  | .ldEd8 d8 => Sys2Proof.Machine.execLdEd8 d8 s
  | .jrNZ e8 => Sys2Proof.Machine.execJrNZ e8 s
  | .ldHLd16 d16 => Sys2Proof.Machine.execLdHLd16 d16 s
  | .decH => Sys2Proof.Machine.execDecH s
  | .ldHd8 d8 => Sys2Proof.Machine.execLdHd8 d8 s
  | .decL => Sys2Proof.Machine.execDecL s
  | .ldLd8 d8 => Sys2Proof.Machine.execLdLd8 d8 s
  | .ldSPd16 d16 => Sys2Proof.Machine.execLdSPd16 d16 s
  | .stHLDecA => Sys2Proof.Machine.execStHLDecA s
  | .decA => Sys2Proof.Machine.execDecA s
  | .ldAd8 d8 => Sys2Proof.Machine.execLdAd8 d8 s
  | .stHLB => Sys2Proof.Machine.execStHLB s
  | .stHLC => Sys2Proof.Machine.execStHLC s
  | .stHLD => Sys2Proof.Machine.execStHLD s
  | .stHLE => Sys2Proof.Machine.execStHLE s
  | .stHLH => Sys2Proof.Machine.execStHLH s
  | .stHLL => Sys2Proof.Machine.execStHLL s
  | .stHLA => Sys2Proof.Machine.execStHLA s
  | .xorB => Sys2Proof.Machine.execXorB s
  | .xorC => Sys2Proof.Machine.execXorC s
  | .xorD => Sys2Proof.Machine.execXorD s
  | .xorE => Sys2Proof.Machine.execXorE s
  | .xorH => Sys2Proof.Machine.execXorH s
  | .xorL => Sys2Proof.Machine.execXorL s
  | .xorHL => Sys2Proof.Machine.execXorHL s
  | .xorA => Sys2Proof.Machine.execXorA s
  | .jp a16 => Sys2Proof.Machine.execJp a16 s

end Sys2Proof.Machine
end

