-- ==== Sys2Proof/Machine/Step.lean ====
section
/-! DEFINITION. The step loop (rule R224), and where a program word is placed so that the next step runs
it. -/

namespace Sys2Proof.Machine

/-- One fetch and one instruction, or a fatal decode fault (rule R224, lines 3 and 4). -/
def stepInstr (s : State) : Host.Outcome State Fault Refusal :=
  match fetch s s.regs.pc with
  | .unmapped op addr t => raiseDecodeFault op addr t
  | .instr i t => exec i t

/-- `step` (rule R224): nothing when halted; else one interrupt service; else one instruction or one fatal
fault. The events are those of this step alone (rule R8). -/
def step (s : State) : Host.Outcome State Fault Refusal :=
  match s.latch with
  | some f => .fault (.halted f)
  | none =>
    if interruptDue s then .next (serviceInterrupt s.clearEvents) else stepInstr s.clearEvents

/-! Placing a program word (log entry 13). -/

/-- A byte fetched from this address is one that the state stores (or that the host loads). -/
def storesFetched (s : State) (a : Word) : Bool :=
  match region a with
  | .fixedRom => (a.toNat < Config.bootSize && overlayActive s) || a.toNat < s.cart.length
  | .switchRom => bankCount s != 0 && switchOffset s a < s.cart.length
  | .vram | .eram | .wram0 | .wram1 | .oam | .hram => true
  | .unbacked => false
  | .prohibited => false
  | .io => (ioRegAt s.params.addr a).isSome || isAudio s.params.addr a
  | .ie => true

/-- Put a byte where a fetch from this address finds it. -/
def placeByte (s : State) (a : Word) (v : Byte) : State :=
  match region a with
  | .fixedRom =>
    if a.toNat < Config.bootSize ∧ overlayActive s = true then
      s.setBoot (Memory.write none s.boot a.toNat v)
    else s.setCart { s.cart with image := Memory.write none s.cart.image a.toNat v }
  | .switchRom => s.setCart { s.cart with image := Memory.write none s.cart.image (switchOffset s a) v }
  | .vram | .eram | .wram0 | .wram1 | .oam | .hram => writeRam s a v
  | .unbacked => s
  | .prohibited => s
  | .io =>
    match ioRegAt s.params.addr a with
    | some r => s.setIo (s.io.set r v)
    | none => if isAudio s.params.addr a then s.setIo (writeAudio s.io a v) else s
  | .ie => s.setIo { s.io with ie := v }

/-- Put the bytes of a list at consecutive addresses. -/
def placeBytes (s : State) (a : Word) : List Byte → State
  | [] => s
  | b :: rest => placeBytes (placeByte s a b) (a + 1#16) rest

/-- Where a word is placed: at PC if its three bytes can be stored there, else at the start of work RAM. -/
def fetchHome (s : State) : Word :=
  if storesFetched s s.regs.pc && storesFetched s (s.regs.pc + 1#16)
      && storesFetched s (s.regs.pc + 2#16) then s.regs.pc
  else 0xC000#16

/-- The state with an instruction stored where the next step fetches, so that the next step runs it: no
latch is set and no interrupt comes first. -/
def State.withFetchWord (s : State) (nbits w : Nat) : State :=
  let placed := placeBytes ((s.setPc (fetchHome s)).setLatch none) (fetchHome s) (tableBytes nbits w)
  placed.setIme (placed.ime && !anyInterruptPending placed)

end Sys2Proof.Machine
end

