-- ==== Sys2Proof/Machine/Construct.lean ====
section
/-! DEFINITION. The host's construction of the block from a cartridge image (rules R66, R67, R184, R228),
and the launch state of rule R223. -/

namespace Sys2Proof.Machine

/-- Why a load fails; no block exists then (rule R184). -/
inductive LoadFault where
  | imageTooSmall (len : Nat)
  | unsupportedController (byte : Byte)
  deriving DecidableEq, Repr

/-- The controller of a controller-type byte, if it is supported (rule R67). -/
def controllerOfType (p : Params) (b : Byte) : Option Controller :=
  if b = p.typeNoBanking then some .noBanking
  else if b = p.typeLinear then some .linearBanked
  else none

/-- The title window of an image: diagnostic only (rule R66). -/
def cartridgeTitle (p : Params) (image : List Byte) : List Byte :=
  (image.drop p.titleOffset).take Config.titleLength

/-- Loading a cartridge image (rules R66, R67). -/
def loadCartridge (p : Params) (image : List Byte) : Except LoadFault Cartridge :=
  if image.length < Config.bankSize then .error (.imageTooSmall image.length)
  else
    match controllerOfType p (image.getD p.typeOffset 0x00#8) with
    | none => .error (.unsupportedController (image.getD p.typeOffset 0x00#8))
    | some c =>
      .ok { image := Memory.ofBytes 0 image, length := image.length, controller := c }

/-- Construction (rule R228) from the parameters of rule R4, the image and the boot program: the load, then the
reset state. The boot program's first 256 bytes are taken (log entry 4). -/
def construct (p : Params) (image boot : List Byte) : Except LoadFault State :=
  match loadCartridge p image with
  | .error e => .error e
  | .ok cart => .ok (State.resetWith p cart (Memory.ofBytes 0 (boot.take Config.bootSize)))

/-- A launch state: the overlay inactive and PC where the host wants it (rule R223). -/
def State.launch (s : State) (pc : Word) : State :=
  (s.setIo (s.io.set .bootOff 0x01#8)).setPc pc

end Sys2Proof.Machine
end

