-- ==== Sys2Proof/Machine/Environment.lean ====
section
/-! DEFINITION. The environment's primitives (rules R188, R189, R197 to R202), called between steps only
(rule R200; log entry 12). -/

namespace Sys2Proof.Machine

/-- `increment_divider()`: modulo 256, no interrupt (rule R197). -/
def incrementDivider (s : State) : State := s.setIo (s.io.set .div (s.io.div + 1#8))

/-- `timer_tick()`: on overflow TIMA is reloaded from TMA and the timer interrupt is requested; TAC is not
consulted (rule R198). -/
def timerTick (s : State) : State :=
  if s.io.tima = 0xFF#8 then requestInterrupt (s.setIo (s.io.set .tima s.io.tma)) .timer
  else s.setIo (s.io.set .tima (s.io.tima + 1#8))

/-- LY after one scanline (rule R199; log entry 11). -/
def nextScanline (period : Nat) (ly : Byte) : Byte := BitVec.ofNat 8 ((ly + 1#8).toNat % period)

/-- `scanline_advance()`: LY and nothing else (rule R199). -/
def scanlineAdvance (s : State) : State := s.setIo (s.io.set .ly (nextScanline s.params.lyPeriod s.io.ly))

/-- `env_set_stat_low(m)`: bits 2..0 of STAT (rule R201). -/
def envSetStatLow (s : State) (m : BitVec 3) : State :=
  s.setIo (s.io.set .stat ((s.io.stat &&& 0xF8#8) ||| m.setWidth 8))

/-- `env_set_joypad(v)` (rule R202). -/
def envSetJoypad (s : State) (v : Byte) : State := s.setIo (s.io.set .joyp v)

/-- One call the environment may make. -/
inductive EnvCall where
  | requestInterrupt (n : Interrupt)
  | clearInterrupt (n : Interrupt)
  | incrementDivider
  | timerTick
  | scanlineAdvance
  | setStatLow (m : BitVec 3)
  | setJoypad (v : Byte)
  deriving DecidableEq, Repr

/-- What a call of the environment does. -/
def environment (s : State) : EnvCall → State
  | .requestInterrupt n => requestInterrupt s n
  | .clearInterrupt n   => clearInterrupt s n
  | .incrementDivider   => incrementDivider s
  | .timerTick          => timerTick s
  | .scanlineAdvance    => scanlineAdvance s
  | .setStatLow m       => envSetStatLow s m
  | .setJoypad v        => envSetJoypad s v

/-- Any finite sequence of calls at one step boundary (rule R200). -/
def environmentRun (s : State) : List EnvCall → State
  | [] => s
  | c :: rest => environmentRun (environment s c) rest

end Sys2Proof.Machine
end

