-- ==== Sys2Proof/Machine/Run.lean ====
section
/-! DEFINITION. A run with the environment: at each boundary any finite sequence of its calls, then one
step (rules R9, R200; log entry 12). -/

namespace Sys2Proof.Machine

/-- The run a schedule gives: each entry is the calls made at a boundary, followed by a step; the run stops
at the first fault or refusal. -/
def runScheduled : List (List EnvCall) → State → Outcome
  | [], s => .next s
  | calls :: rest, s =>
    match step (environmentRun s calls) with
    | .next t => runScheduled rest t
    | .fault r => .fault r
    | .refused r => .refused r

end Sys2Proof.Machine
end

