-- ==== Sys2Proof/Safety.lean ====
section
/-! DEFINITION. The terms the statements use: which parameters the spec admits, the invariant of every reachable
state, what it is for the machine to be about to run given bytes, and which writes move other bytes into view. -/

namespace Sys2Proof.Machine

/-- An address of a RAM region (rule R23). -/
def isRamKey (k : Nat) : Bool :=
  (0x8000 ≤ k && k ≤ 0xDFFF) || (0xFE00 ≤ k && k ≤ 0xFE9F) || (0xFF80 ≤ k && k ≤ 0xFFFE)

/-- The parameters the spec admits: "All the parameter addresses are distinct and lie in 0xFF00..0xFF7F" (rule
R25), one byte is one opcode (rule R89), and a type byte that is read from every image that loads and selects
one controller (rules R66, R67; log entry 15). -/
structure ParamsLegal (p : Params) : Prop where
  addrInWindow  : ∀ r, region (ioAddr p.addr r) = .io
  addrDistinct  : ∀ r q, ioAddr p.addr r = ioAddr p.addr q → r = q
  audioInWindow : ∀ x ∈ p.addr.audio, 0xFF00 ≤ x.1 ∧ x.2 ≤ 0xFF7F
  audioApart    : ∀ r, isAudio p.addr (ioAddr p.addr r) = false
  periodPos     : 0 < p.lyPeriod
  titleInImage  : p.titleOffset + Config.titleLength ≤ Config.bankSize
  typeInImage   : p.typeOffset < Config.bankSize
  typesDistinct : p.typeNoBanking ≠ p.typeLinear
  opcodesDistinct : (opcodeBytes p.opcodes).Nodup

/-- An address of `AUDIO_RANGE` (rule R25). -/
def isAudioKey (d : IoAddresses) (k : Nat) : Bool := d.audio.any (fun r => r.1 ≤ k && k ≤ r.2)

/-- The bank-selection register holds a bank there is: 1 to max(N,1) (rule R20), and 1 under NoBanking
(rule R51). -/
def bankLegal (s : State) : Prop :=
  1 ≤ s.bank.toNat ∧ s.bank.toNat ≤ max (bankCount s) 1 ∧
    (s.cart.controller = .noBanking → s.bank = 0x01#8)

/-- The invariant: the parameters are ones the spec admits, every byte store is in its canonical form and lists
only keys that exist, BANK is legal, LY is a scanline number, the image has at least one bank. -/
structure Inv (s : State) : Prop where
  params     : ParamsLegal s.params
  ramForm    : Memory.wf none s.ram
  ramKeys    : ∀ c ∈ s.ram, isRamKey c.1 = true
  audioForm  : Memory.wf (some 0x00#8) s.io.audio
  audioKeys  : ∀ c ∈ s.io.audio, isAudioKey s.params.addr c.1 = true
  bootForm   : Memory.wf none s.boot
  bootKeys   : ∀ c ∈ s.boot, c.1 < Config.bootSize
  imageForm  : Memory.wf none s.cart.image
  imageKeys  : ∀ c ∈ s.cart.image, c.1 < s.cart.length
  imageSize  : Config.bankSize ≤ s.cart.length
  bank       : bankLegal s
  scanline   : s.io.ly.toNat < s.params.lyPeriod

/-- The step from `s` fetches the bytes `bs` from PC on and leaves `t` by its reads: `s` is not halted and
takes no interrupt. -/
def Fetches (s : State) (bs : List Byte) (t : State) : Prop :=
  s.latch = none ∧ interruptDue s = false ∧
    readBytes s.clearEvents s.regs.pc bs.length = (bs, t)

/-- The read of address `b` may change when address `a` is written although `b` is not `a`: the boot overlay
follows BOOT_OFF, and the switchable ROM window follows a bank-select write (rule R62). -/
def movesView (d : IoAddresses) (a b : Word) : Prop :=
  (a = d.bootOff ∧ b.toNat ≤ 0x00FF) ∨ (region a = .switchRom ∧ region b = .switchRom)

/-- An address that is plain read/write storage: RAM, IE, AUDIO, a named register but DIV, STAT and LY (rule
R59). -/
def plainStorage (d : IoAddresses) (a : Word) : Bool :=
  isRamRegion (region a) || region a == .ie ||
    (region a == .io &&
      match ioRegAt d a with
      | some r => r != .div && r != .stat && r != .ly
      | none => isAudio d a)

/-- The pointer and the register of a store instruction (rule R120). -/
def storeOperands (i : Instr) : Option (Pointer × Reg8) :=
  match i.form with
  | ⟨.store, [.pointer p, .reg r], _⟩ => some (p, r)
  | _ => none

/-- The unmapped bytes as rule R88 lists them, for the default opcode bytes: ranges with both bounds inclusive. -/
def unmappedRanges : List (Nat × Nat) :=
  [(0x03, 0x04), (0x07, 0x0C), (0x0F, 0x10), (0x13, 0x14), (0x17, 0x1C), (0x1F, 0x1F), (0x22, 0x24),
   (0x27, 0x2C), (0x2F, 0x30), (0x33, 0x3C), (0x3F, 0x6F), (0x76, 0x76), (0x78, 0xA7), (0xB0, 0xC2),
   (0xC4, 0xFF)]

/-- A byte of the list of rule R88. -/
def isUnmapped (op : Byte) : Bool := unmappedRanges.any (fun r => r.1 ≤ op.toNat && op.toNat ≤ r.2)

/-- The Register File with new values in A and F, past a one-byte instruction (rules R140, R150). -/
def regsAfterXor (g : Regs) (v : Byte) : Regs :=
  { g with a := g.a ^^^ v, f := ⟨g.a == v, false, false, false⟩, pc := g.pc + 1#16 }

/-- The flags a decrement of `v` leaves: Z iff `v = 1`, N, H iff the low nibble of `v` is zero, C as before
(rule R140). -/
def flagsAfterDec (v : Byte) (old : Flags) : Flags :=
  ⟨v == 0x01#8, true, v &&& 0x0F#8 == 0x00#8, old.c⟩

end Sys2Proof.Machine
end

