-- ==== Sys2Proof/Certificates/Slice0/Obligations.lean ====
section
/-! DEFINITION. What is claimed of the model: one `Obligations.<Name>` for each statement of
OBLIGATIONS.json. -/

open Sys2Proof Sys2Proof.Machine

/-! Words and the Register File. -/

/-- The word helpers are what rule R6 says: concatenation, the two halves, sign extension. -/
def Obligations.WordHelpersFollowNotation : Prop :=
  (∀ hi lo : Byte, (joinBytes hi lo).toNat = hi.toNat * 256 + lo.toNat) ∧
  (∀ v : Word, (hiByte v).toNat = v.toNat / 256 ∧ (loByte v).toNat = v.toNat % 256) ∧
  (∀ b : Byte, (sext16 b).toNat = if b.toNat < 0x80 then b.toNat else 0xFF00 + b.toNat)

/-- Rule R33: the Register File is created zeroed, whatever the parameters, the cartridge and the boot program: the
flags are 0, every view reads 0, and the entry point is address 0x0000. -/
def Obligations.ResetRegisterFileIsZero : Prop :=
  (∀ (p : Params) (cart : Cartridge) (boot : Memory),
    (∀ r, (State.resetWith p cart boot).get8 r = 0x00#8) ∧
    (∀ q, (State.resetWith p cart boot).get16 q = 0x0000#16) ∧
    (State.resetWith p cart boot).regs.sp = 0x0000#16 ∧ (State.resetWith p cart boot).regs.pc = 0x0000#16 ∧
    (State.resetWith p cart boot).regs.f = ⟨false, false, false, false⟩) ∧
  ∃ cart boot, State.reset = State.resetWith defaultParams cart boot

/-- The reset values of rule R34 (the spec's decision D23) over every parameter, cartridge and boot program: IME is
the parameter IME_RESET; BANK, the fault latch, IE and every named I/O register have the rule's values, and an audio
cell reads 0. That IME_RESET is 0 in `State.reset` is its default, which the model takes there by its own choice
(log entry 7); that the audio addresses lie in the I/O window is the legality of the parameters (log entry 15). -/
def Obligations.ResetHiddenStateAndControlRegisters : Prop :=
  (∀ (p : Params) (cart : Cartridge) (boot : Memory),
    (State.resetWith p cart boot).ime = p.imeReset ∧ (State.resetWith p cart boot).bank = 0x01#8 ∧
    (State.resetWith p cart boot).latch = none ∧ (State.resetWith p cart boot).io.ie = 0x00#8 ∧
    (∀ r, (State.resetWith p cart boot).io.get r = 0x00#8) ∧
    (ParamsLegal p → ∀ a, isAudio p.addr a = true → readByte (State.resetWith p cart boot) a = 0x00#8) ∧
    overlayActive (State.resetWith p cart boot) = true ∧
    (State.resetWith p cart boot).params = p ∧ (State.resetWith p cart boot).cart = cart ∧
    (State.resetWith p cart boot).boot = boot) ∧
  State.reset.params = defaultParams ∧ State.reset.ime = false

/-- Rules R11 and R12: a pair view is its two registers, the first-named one high; both round trips hold for
BC, DE and HL, and for AF with F's low nibble forced to zero. -/
def Obligations.PairViewsRoundTrip : Prop :=
  ∀ (s : State) (v : Word) (h l : Byte),
    s.get16 .bc = joinBytes (s.get8 .b) (s.get8 .c) ∧ s.get16 .de = joinBytes (s.get8 .d) (s.get8 .e) ∧
    s.get16 .hl = joinBytes (s.get8 .h) (s.get8 .l) ∧ s.get16 .af = joinBytes (s.get8 .a) (s.get8 .f) ∧
    (s.set16 .bc v).get8 .b = hiByte v ∧ (s.set16 .bc v).get8 .c = loByte v ∧
    (s.set16 .de v).get8 .d = hiByte v ∧ (s.set16 .de v).get8 .e = loByte v ∧
    (s.set16 .hl v).get8 .h = hiByte v ∧ (s.set16 .hl v).get8 .l = loByte v ∧
    (s.set16 .af v).get8 .a = hiByte v ∧ (s.set16 .af v).get8 .f = loByte v &&& 0xF0#8 ∧
    ((s.set8 .b h).set8 .c l).get16 .bc = joinBytes h l ∧
    ((s.set8 .d h).set8 .e l).get16 .de = joinBytes h l ∧
    ((s.set8 .h h).set8 .l l).get16 .hl = joinBytes h l ∧
    (l &&& 0x0F#8 = 0x00#8 → ((s.set8 .a h).set8 .f l).get16 .af = joinBytes h l) ∧
    (s.set16 .bc v).get16 .bc = v ∧ (s.set16 .de v).get16 .de = v ∧ (s.set16 .hl v).get16 .hl = v ∧
    (s.set16 .sp v).get16 .sp = v

/-- Rule R15 (bit positions: the spec's decision D6): F holds Z N H C in bits 7 to 4, its low nibble reads
zero in every state, and every write to F stores `v & 0xF0`. -/
def Obligations.FlagRegisterHoldsFlagsAboveZeroNibble : Prop :=
  ∀ (s : State) (v : Byte) (w : Word) (f : Flags),
    (s.get8 .f).getLsbD 7 = s.regs.f.z ∧ (s.get8 .f).getLsbD 6 = s.regs.f.n ∧
    (s.get8 .f).getLsbD 5 = s.regs.f.h ∧ (s.get8 .f).getLsbD 4 = s.regs.f.c ∧
    s.get8 .f &&& 0x0F#8 = 0x00#8 ∧ (s.set8 .f v).get8 .f = v &&& 0xF0#8 ∧
    (s.set16 .af w).get8 .f = loByte w &&& 0xF0#8 ∧ (s.setFlags f).get8 .f &&& 0xF0#8 = flagsByte f

/-- Rule R10: each 8-bit register has a mutator of its own with no side effect beyond the mutated field. -/
def Obligations.RegisterWriteTouchesOneRegister : Prop :=
  ∀ (s : State) (r : Reg8) (v : Byte),
    (s.set8 r v).get8 r = (if r = .f then v &&& 0xF0#8 else v) ∧
    (∀ q, q ≠ r → (s.set8 r v).get8 q = s.get8 q) ∧
    (s.set8 r v).regs.sp = s.regs.sp ∧ (s.set8 r v).regs.pc = s.regs.pc ∧
    (s.set8 r v) = { s with regs := (s.set8 r v).regs }

/-! The address space. -/

/-- The region table of rule R41: every address lies in exactly one of twelve ranges (the range
0xE000..0xFDFF is the spec's decision D14). -/
def Obligations.EveryAddressHasItsRegion : Prop :=
  ∀ a : Word,
    (region a = .fixedRom ↔ a.toNat ≤ 0x3FFF) ∧
    (region a = .switchRom ↔ 0x4000 ≤ a.toNat ∧ a.toNat ≤ 0x7FFF) ∧
    (region a = .vram ↔ 0x8000 ≤ a.toNat ∧ a.toNat ≤ 0x9FFF) ∧
    (region a = .eram ↔ 0xA000 ≤ a.toNat ∧ a.toNat ≤ 0xBFFF) ∧
    (region a = .wram0 ↔ 0xC000 ≤ a.toNat ∧ a.toNat ≤ 0xCFFF) ∧
    (region a = .wram1 ↔ 0xD000 ≤ a.toNat ∧ a.toNat ≤ 0xDFFF) ∧
    (region a = .unbacked ↔ 0xE000 ≤ a.toNat ∧ a.toNat ≤ 0xFDFF) ∧
    (region a = .oam ↔ 0xFE00 ≤ a.toNat ∧ a.toNat ≤ 0xFE9F) ∧
    (region a = .prohibited ↔ 0xFEA0 ≤ a.toNat ∧ a.toNat ≤ 0xFEFF) ∧
    (region a = .io ↔ 0xFF00 ≤ a.toNat ∧ a.toNat ≤ 0xFF7F) ∧
    (region a = .hram ↔ 0xFF80 ≤ a.toNat ∧ a.toNat ≤ 0xFFFE) ∧
    (region a = .ie ↔ a.toNat = 0xFFFF)

/-- Rule R44: below 0x4000 the boot program is read at 0x0000..0x00FF while BOOT_OFF is zero, the fixed bank
otherwise. -/
def Obligations.ReadFixedBankUnderBootOverlay : Prop :=
  ∀ (s : State) (a : Word), a.toNat ≤ 0x3FFF →
    ((a.toNat ≤ 0x00FF ∧ s.io.bootOff = 0x00#8) → readByte s a = bootAt s a.toNat) ∧
    (¬ (a.toNat ≤ 0x00FF ∧ s.io.bootOff = 0x00#8) → readByte s a = imageAt s a.toNat)

/-- Rule R45: the switchable window reads the image at `BANK * 0x4000 + (addr - 0x4000)`, 0x00 beyond its end,
and the parameter UNMAPPED_READ_VALUE when there is no switchable bank. -/
def Obligations.ReadSelectedBank : Prop :=
  ∀ (s : State) (a : Word), 0x4000 ≤ a.toNat → a.toNat ≤ 0x7FFF →
    (1 ≤ bankCount s → readByte s a = imageAt s (s.bank.toNat * 0x4000 + (a.toNat - 0x4000))) ∧
    (bankCount s = 0 → readByte s a = s.params.unmappedReadValue) ∧
    (∀ offset, s.cart.length ≤ offset → imageAt s offset = 0x00#8)

/-- Rules R46 and R53: a RAM byte holds what was last written to it, the write succeeds, and nothing else
changes: no other byte of the address space and no other part of the state. -/
def Obligations.RamHoldsLastByteWritten : Prop :=
  ∀ (s : State) (a : Word) (v : Byte), isRamRegion (region a) = true →
    ∃ t, writeByte s a v = .ok t ∧ readByte t a = v ∧ (∀ b, b ≠ a → readByte t b = readByte s b) ∧
      t = { s with ram := t.ram }

/-- Reads without storage and reads of registers (20_memory.md section 2): 0xE000..0xFDFF and unmapped I/O
addresses read the parameter UNMAPPED_READ_VALUE, a named register, at its parameter address, and IE their stored
value. The addresses are legal (log entry 15). The default of the read value, 0xFF, and the default addresses of
rule R25 are the model's choice in `State.reset` (log entry 7). -/
def Obligations.ReadRegistersAndUnbackedAddresses : Prop :=
  (∀ (s : State) (a : Word),
    (0xE000 ≤ a.toNat → a.toNat ≤ 0xFDFF → readByte s a = s.params.unmappedReadValue) ∧
    (region a = .io → (∀ r, ioAddr s.params.addr r ≠ a) → isAudio s.params.addr a = false →
      readByte s a = s.params.unmappedReadValue) ∧
    readByte s 0xFFFF#16 = s.io.ie ∧
    (ParamsLegal s.params → ∀ r, readByte s (ioAddr s.params.addr r) = s.io.get r)) ∧
  defaultParams.unmappedReadValue = 0xFF#8 ∧ ParamsLegal defaultParams ∧
  (∀ s : State, s.params = defaultParams →
    readByte s 0xFF00#16 = s.io.joyp ∧ readByte s 0xFF01#16 = s.io.sb ∧ readByte s 0xFF02#16 = s.io.sc ∧
    readByte s 0xFF04#16 = s.io.div ∧ readByte s 0xFF05#16 = s.io.tima ∧ readByte s 0xFF06#16 = s.io.tma ∧
    readByte s 0xFF07#16 = s.io.tac ∧ readByte s 0xFF0F#16 = s.io.intf ∧ readByte s 0xFF40#16 = s.io.lcdc ∧
    readByte s 0xFF41#16 = s.io.stat ∧ readByte s 0xFF42#16 = s.io.scy ∧ readByte s 0xFF43#16 = s.io.scx ∧
    readByte s 0xFF44#16 = s.io.ly ∧ readByte s 0xFF45#16 = s.io.lyc ∧ readByte s 0xFF47#16 = s.io.bgp ∧
    readByte s 0xFF48#16 = s.io.obp0 ∧ readByte s 0xFF49#16 = s.io.obp1 ∧ readByte s 0xFF50#16 = s.io.bootOff)

/-- Rule R54 (the spec's decision D14): a write stores nothing and returns MemoryFault with its address in
0xE000..0xFDFF, and at no other address; `MemWrite` then emits the event and changes nothing else. -/
def Obligations.WriteFaultsExactlyWhereUnbacked : Prop :=
  ∀ (s : State) (a : Word) (v : Byte),
    ((0xE000 ≤ a.toNat ∧ a.toNat ≤ 0xFDFF) →
      writeByte s a v = .error ⟨a⟩ ∧ memWrite s a v = { s with events := s.events ++ [⟨a⟩] }) ∧
    (¬ (0xE000 ≤ a.toNat ∧ a.toNat ≤ 0xFDFF) →
      ∃ t, writeByte s a v = .ok t ∧ memWrite s a v = t ∧ t.events = s.events)

/-- Rules R50, R51 and R55: writes into the fixed ROM range, into the switchable window under NoBanking, and
into the prohibited range succeed and change no state. -/
def Obligations.RomAndProhibitedWritesChangeNothing : Prop :=
  ∀ (s : State) (a : Word) (v : Byte),
    (a.toNat ≤ 0x3FFF ∨ (0x4000 ≤ a.toNat ∧ a.toNat ≤ 0x7FFF ∧ s.cart.controller = .noBanking) ∨
      (0xFEA0 ≤ a.toNat ∧ a.toNat ≤ 0xFEFF)) →
    writeByte s a v = .ok s

/-- Rule R52: under LinearBanked a write anywhere in 0x4000..0x7FFF selects a bank by a clamp of the byte
written, and changes nothing but BANK. -/
def Obligations.BankSelectIsClamp : Prop :=
  ∀ (s : State) (a : Word) (v : Byte), 0x4000 ≤ a.toNat → a.toNat ≤ 0x7FFF →
    s.cart.controller = .linearBanked →
    ∃ t, writeByte s a v = .ok t ∧ t = { s with bank := t.bank } ∧
      t.bank.toNat =
        if bankCount s = 0 then 1
        else if v.toNat = 0 then 1
        else if bankCount s < v.toNat then bankCount s
        else v.toNat

/-- Rule R56, for the legal parameter addresses (log entry 15): a write in the I/O window clears DIV, keeps bits
2..0 of STAT, does nothing to LY and to an unmapped register, and is stored whole in every other register; it always
succeeds and touches no other register. -/
def Obligations.IoWindowWrites : Prop :=
  ∀ (s : State) (v : Byte), ParamsLegal s.params →
    writeByte s s.params.addr.div v = .ok { s with io := { s.io with div := 0x00#8 } } ∧
    writeByte s s.params.addr.stat v =
      .ok { s with io := { s.io with stat := (s.io.stat &&& 0x07#8) ||| (v &&& 0xF8#8) } } ∧
    writeByte s s.params.addr.ly v = .ok s ∧
    (∀ r, r ≠ .div → r ≠ .stat → r ≠ .ly →
      ∃ t, writeByte s (ioAddr s.params.addr r) v = .ok t ∧ t = { s with io := t.io } ∧ t.io.get r = v ∧
        (∀ q, q ≠ r → t.io.get q = s.io.get q) ∧ t.io.audio = s.io.audio ∧ t.io.ie = s.io.ie) ∧
    (∀ a, isAudio s.params.addr a = true →
      ∃ t, writeByte s a v = .ok t ∧ t = { s with io := t.io } ∧ readByte t a = v ∧
        (∀ b, b ≠ a → readByte t b = readByte s b)) ∧
    (∀ a, region a = .io → (∀ r, ioAddr s.params.addr r ≠ a) → isAudio s.params.addr a = false →
      writeByte s a v = .ok s)

/-- Rule R57: a write at 0xFFFF stores all 8 bits in IE, succeeds, and a read gives them back. -/
def Obligations.InterruptEnableStoresWholeByte : Prop :=
  ∀ (s : State) (v : Byte),
    ∃ t, writeByte s 0xFFFF#16 v = .ok t ∧ t = { s with io := { s.io with ie := v } } ∧
      readByte t 0xFFFF#16 = v

/-- What one byte write leaves alone: the parameters, the registers, IME, the latch, the cartridge and the boot
program; and every other address reads as before, except where the write moves the boot overlay or selects a bank. -/
def Obligations.ByteWriteLeavesTheRestAlone : Prop :=
  ∀ (s : State) (a : Word) (v : Byte),
    (memWrite s a v).params = s.params ∧ (memWrite s a v).regs = s.regs ∧
    (memWrite s a v).ime = s.ime ∧ (memWrite s a v).latch = s.latch ∧
    (memWrite s a v).cart = s.cart ∧ (memWrite s a v).boot = s.boot ∧
    ∀ b, b ≠ a → ¬ movesView s.params.addr a b → readByte (memWrite s a v) b = readByte s b

/-- Rules R58 and R59 (D21, D22): a word is two bytes, the low one at the lower address, addresses wrapping;
a word write is two byte writes, the low one first; where both addresses are plain storage the word reads
back (the addresses of the registers are legal, log entry 15). -/
def Obligations.WordAccessIsTwoByteAccesses : Prop :=
  ∀ (s : State) (a v : Word),
    readWord s a = joinBytes (readByte s (a + 1#16)) (readByte s a) ∧
    memWriteWord s a v = memWrite (memWrite s a (loByte v)) (a + 1#16) (hiByte v) ∧
    (ParamsLegal s.params → plainStorage s.params.addr a = true →
      plainStorage s.params.addr (a + 1#16) = true → readWord (memWriteWord s a v) a = v)

/-! The decoder. -/

/-- For any distinct opcode bytes: decoding an encoded instruction gives it back, with every operand at every value,
and leaves the bytes after it alone. -/
def Obligations.DecodeOfEncodeIsIdentity : Prop :=
  ∀ (o : Opcodes) (i : Instr) (rest : List Byte), (opcodeBytes o).Nodup →
    decode o (encode o i ++ rest) = .ok (i, rest)

/-- For any opcode bytes: whatever decodes is the encoding of what it decodes to, so each byte sequence has one
meaning. -/
def Obligations.DecodedBytesAreTheEncoding : Prop :=
  ∀ (o : Opcodes) (bs : List Byte) (i : Instr) (rest : List Byte),
    decode o bs = .ok (i, rest) → bs = encode o i ++ rest

/-- Rules R83 and R86 on words written out from the opcode map: one instruction of each family.
The opcode bytes are those of rule R86. -/
def Obligations.OpcodeMapWordsDecode : Prop :=
  decode defaultOpcodes [0x00#8] = .ok (.nop, []) ∧
  (∀ lo hi, decode defaultOpcodes [0x21#8, lo, hi] = .ok (.ldHLd16 (joinBytes hi lo), [])) ∧
  (∀ d8, decode defaultOpcodes [0x3E#8, d8] = .ok (.ldAd8 d8, [])) ∧
  decode defaultOpcodes [0x32#8] = .ok (.stHLDecA, []) ∧ decode defaultOpcodes [0x71#8] = .ok (.stHLC, []) ∧
  decode defaultOpcodes [0x05#8] = .ok (.decB, []) ∧ decode defaultOpcodes [0xAB#8] = .ok (.xorE, []) ∧
  decode defaultOpcodes [0xAE#8] = .ok (.xorHL, []) ∧
  decode defaultOpcodes [0xC3#8, 0x00#8, 0x01#8] = .ok (.jp 0x0100#16, []) ∧
  decode defaultOpcodes [0x20#8, 0xFC#8] = .ok (.jrNZ 0xFC#8, [])

/-- For any distinct opcode bytes, a byte that is none of the 39 decodes to no instruction, whatever follows it,
and each of the 39 has a row. With the opcode bytes of rule R86 the left-over bytes are those
of the list of rule R88. -/
def Obligations.UnmappedBytesAreRejected : Prop :=
  (∀ (o : Opcodes), (opcodeBytes o).Nodup →
    (∀ (op : Byte) (rest : List Byte), op ∉ opcodeBytes o → decode o (op :: rest) = .error (.unmapped op)) ∧
    (∀ op ∈ opcodeBytes o, ∃ n, opcodeLength o op = some n) ∧ (opcodeBytes o).length = 39) ∧
  (∀ op : Byte, isUnmapped op = true ↔ op ∉ opcodeBytes defaultOpcodes) ∧
  ((List.range 256).filter (fun n => isUnmapped (BitVec.ofNat 8 n))).length = 217

/-- Rules R80 and R90, for any distinct opcode bytes: an instruction is 1, 2 or 3 bytes long, and its first byte
alone gives the length. -/
def Obligations.OpcodeByteGivesLength : Prop :=
  ∀ (o : Opcodes) (i : Instr), (opcodeBytes o).Nodup →
    (encode o i).length = i.length ∧ 1 ≤ i.length ∧ i.length ≤ 3 ∧
    ∃ op rest, encode o i = op :: rest ∧ opcodeLength o op = some i.length

/-- The instruction set is closed (rules R3, R82, R84 read together): the decoded forms that are well formed
are those of the 39 instructions, and no others. -/
def Obligations.WellFormedFormsAreTheInstructions : Prop :=
  ∀ f : Form, f.wellFormed = true ↔ ∃ i : Instr, i.form = f

/-! The step. -/

/-- When the bytes at PC are those of an instruction, under the state's opcode bytes, a step that is not halted and
takes no interrupt is `exec` of it at that state, the events of earlier steps forgotten; the reads of the fetch
change nothing but the count of free bytes, and nothing at all away from the prohibited range. -/
def Obligations.StepRunsDecodedInstruction : Prop :=
  ∀ (s t : State) (i : Instr), (opcodeBytes s.params.opcodes).Nodup →
    Fetches s (encode s.params.opcodes i) t →
    step s = exec i t ∧ t = { s.clearEvents with oracle := t.oracle } ∧
    ((∀ k < i.length, region (s.regs.pc + BitVec.ofNat 16 k) ≠ .prohibited) → t = s.clearEvents)

/-- Rule R70: a fetch reads the address space as a data read does, byte by byte from PC on, addresses
wrapping. -/
def Obligations.FetchReadsWhatReadByteReads : Prop :=
  ∀ (s : State) (bs : List Byte), s.latch = none → interruptDue s = false →
    (∀ k < bs.length, region (s.regs.pc + BitVec.ofNat 16 k) ≠ .prohibited) →
    (∀ k (h : k < bs.length), readByte s (s.regs.pc + BitVec.ofNat 16 k) = bs[k]) →
    Fetches s bs s.clearEvents

/-- Rule R181 (the spec's decision D12): at an unmapped opcode the step's outcome is DecodeFault with the byte
and its address; the latch records it, no register, memory byte, IME or PC changes, and no later step exists. The
decoder called at any address, by the step or by the host, gives the same fault, with that address (rule R85). A byte
is unmapped when it is none of the opcode bytes; for the bytes of rule R86 that is the list of rule R88. -/
def Obligations.UnmappedOpcodeIsFatal : Prop :=
  (∀ s : State, s.latch = none → interruptDue s = false →
    readByte s s.regs.pc ∉ opcodeBytes s.params.opcodes →
    ∃ t, step s = .fault (.decodeFault (readByte s s.regs.pc) s.regs.pc t) ∧
      t.latch = some (.decodeFault (readByte s s.regs.pc) s.regs.pc) ∧
      t = { s.clearEvents with latch := t.latch, oracle := t.oracle } ∧
      step t = .fault (.halted (.decodeFault (readByte s s.regs.pc) s.regs.pc))) ∧
  (∀ (s : State) (a : Word), readByte s a ∉ opcodeBytes s.params.opcodes →
    decodeAt s a = .error (.decodeFault (readByte s a) a)) ∧
  (∀ op : Byte, isUnmapped op = true → op ∉ opcodeBytes defaultOpcodes)

/-- A set latch dominates everything (rules R22, R193(b)): such a state has no step. -/
def Obligations.LatchedStateHasNoStep : Prop :=
  ∀ (s : State) (f : FatalFault), s.latch = some f → step s = .fault (.halted f)

/-- There is no other stop (rule R185, the spec's own inference): a step that is not halted goes on or raises
DecodeFault at an unmapped opcode; ExecuteFault is never raised and no step is refused. -/
def Obligations.OnlyUnmappedOpcodesStopTheMachine : Prop :=
  ∀ s : State, s.latch = none →
    (∃ t, step s = .next t) ∨
    (interruptDue s = false ∧ readByte s s.regs.pc ∉ opcodeBytes s.params.opcodes ∧
      ∃ t, step s = .fault (.decodeFault (readByte s s.regs.pc) s.regs.pc t))

/-! Immediate loads. -/

/-- Rules R100 to R104: `LD rr,d16` puts the immediate in its pair, byte 2 in the high register and byte 1 in
the low one, or in SP; PC advances by 3; nothing else changes. The second half is the same from the bytes at
PC, where the opcode bytes are those of rule R86. -/
def Obligations.LoadImmediate16 : Prop :=
  (∀ (s : State) (v : Word),
    exec (.ldBCd16 v) s =
      .next { s with regs := { s.regs with b := hiByte v, c := loByte v, pc := s.regs.pc + 3#16 } } ∧
    exec (.ldDEd16 v) s =
      .next { s with regs := { s.regs with d := hiByte v, e := loByte v, pc := s.regs.pc + 3#16 } } ∧
    exec (.ldHLd16 v) s =
      .next { s with regs := { s.regs with h := hiByte v, l := loByte v, pc := s.regs.pc + 3#16 } } ∧
    exec (.ldSPd16 v) s =
      .next { s with regs := { s.regs with sp := v, pc := s.regs.pc + 3#16 } }) ∧
  (∀ (s t : State) (b1 b2 : Byte), s.params.opcodes = defaultOpcodes →
    (Fetches s [0x01#8, b1, b2] t →
      step s = .next { t with regs := { t.regs with b := b2, c := b1, pc := t.regs.pc + 3#16 } }) ∧
    (Fetches s [0x11#8, b1, b2] t →
      step s = .next { t with regs := { t.regs with d := b2, e := b1, pc := t.regs.pc + 3#16 } }) ∧
    (Fetches s [0x21#8, b1, b2] t →
      step s = .next { t with regs := { t.regs with h := b2, l := b1, pc := t.regs.pc + 3#16 } }) ∧
    (Fetches s [0x31#8, b1, b2] t →
      step s =
        .next { t with regs := { t.regs with sp := joinBytes b2 b1, pc := t.regs.pc + 3#16 } }))

/-- Rules R105 to R112: `LD r,d8` puts the immediate in its register; PC advances by 2; nothing else changes,
no flag among it. The second half is the same from the bytes at PC, where the
opcode bytes are those of rule R86. -/
def Obligations.LoadImmediate8 : Prop :=
  (∀ (s : State) (v : Byte),
    exec (.ldBd8 v) s = .next { s with regs := { s.regs with b := v, pc := s.regs.pc + 2#16 } } ∧
    exec (.ldCd8 v) s = .next { s with regs := { s.regs with c := v, pc := s.regs.pc + 2#16 } } ∧
    exec (.ldDd8 v) s = .next { s with regs := { s.regs with d := v, pc := s.regs.pc + 2#16 } } ∧
    exec (.ldEd8 v) s = .next { s with regs := { s.regs with e := v, pc := s.regs.pc + 2#16 } } ∧
    exec (.ldHd8 v) s = .next { s with regs := { s.regs with h := v, pc := s.regs.pc + 2#16 } } ∧
    exec (.ldLd8 v) s = .next { s with regs := { s.regs with l := v, pc := s.regs.pc + 2#16 } } ∧
    exec (.ldAd8 v) s = .next { s with regs := { s.regs with a := v, pc := s.regs.pc + 2#16 } }) ∧
  (∀ (s t : State) (v : Byte), s.params.opcodes = defaultOpcodes →
    (Fetches s [0x06#8, v] t →
      step s = .next { t with regs := { t.regs with b := v, pc := t.regs.pc + 2#16 } }) ∧
    (Fetches s [0x0E#8, v] t →
      step s = .next { t with regs := { t.regs with c := v, pc := t.regs.pc + 2#16 } }) ∧
    (Fetches s [0x16#8, v] t →
      step s = .next { t with regs := { t.regs with d := v, pc := t.regs.pc + 2#16 } }) ∧
    (Fetches s [0x1E#8, v] t →
      step s = .next { t with regs := { t.regs with e := v, pc := t.regs.pc + 2#16 } }) ∧
    (Fetches s [0x26#8, v] t →
      step s = .next { t with regs := { t.regs with h := v, pc := t.regs.pc + 2#16 } }) ∧
    (Fetches s [0x2E#8, v] t →
      step s = .next { t with regs := { t.regs with l := v, pc := t.regs.pc + 2#16 } }) ∧
    (Fetches s [0x3E#8, v] t →
      step s = .next { t with regs := { t.regs with a := v, pc := t.regs.pc + 2#16 } }))

/-! Stores. -/

/-- Rules R120 to R130: a store writes its register at its pointer's address by `MemWrite`, PC advances by 1,
and (HL-) decrements HL after the write; no other register and no flag changes. -/
def Obligations.StoreThroughPointer : Prop :=
  ∀ s : State,
    exec .stBCA s =
      .next { memWrite s (s.get16 .bc) s.regs.a with regs := { s.regs with pc := s.regs.pc + 1#16 } } ∧
    exec .stDEA s =
      .next { memWrite s (s.get16 .de) s.regs.a with regs := { s.regs with pc := s.regs.pc + 1#16 } } ∧
    exec .stHLDecA s =
      .next { memWrite s (s.get16 .hl) s.regs.a with
        regs := { s.regs with h := hiByte (s.get16 .hl - 1#16), l := loByte (s.get16 .hl - 1#16),
                              pc := s.regs.pc + 1#16 } } ∧
    exec .stHLB s =
      .next { memWrite s (s.get16 .hl) s.regs.b with regs := { s.regs with pc := s.regs.pc + 1#16 } } ∧
    exec .stHLC s =
      .next { memWrite s (s.get16 .hl) s.regs.c with regs := { s.regs with pc := s.regs.pc + 1#16 } } ∧
    exec .stHLD s =
      .next { memWrite s (s.get16 .hl) s.regs.d with regs := { s.regs with pc := s.regs.pc + 1#16 } } ∧
    exec .stHLE s =
      .next { memWrite s (s.get16 .hl) s.regs.e with regs := { s.regs with pc := s.regs.pc + 1#16 } } ∧
    exec .stHLH s =
      .next { memWrite s (s.get16 .hl) s.regs.h with regs := { s.regs with pc := s.regs.pc + 1#16 } } ∧
    exec .stHLL s =
      .next { memWrite s (s.get16 .hl) s.regs.l with regs := { s.regs with pc := s.regs.pc + 1#16 } } ∧
    exec .stHLA s =
      .next { memWrite s (s.get16 .hl) s.regs.a with regs := { s.regs with pc := s.regs.pc + 1#16 } }

/-- The same from the bytes at PC: the ten store opcodes run the ten stores (rules R121 to R130),
where the opcode bytes are those of rule R86. -/
def Obligations.StoreOpcodesRunTheirStores : Prop :=
  ∀ s t : State, s.params.opcodes = defaultOpcodes →
    (Fetches s [0x02#8] t → step s = exec .stBCA t) ∧ (Fetches s [0x12#8] t → step s = exec .stDEA t) ∧
    (Fetches s [0x32#8] t → step s = exec .stHLDecA t) ∧
    (Fetches s [0x70#8] t → step s = exec .stHLB t) ∧ (Fetches s [0x71#8] t → step s = exec .stHLC t) ∧
    (Fetches s [0x72#8] t → step s = exec .stHLD t) ∧ (Fetches s [0x73#8] t → step s = exec .stHLE t) ∧
    (Fetches s [0x74#8] t → step s = exec .stHLH t) ∧ (Fetches s [0x75#8] t → step s = exec .stHLL t) ∧
    (Fetches s [0x77#8] t → step s = exec .stHLA t)

/-- The frame of the ten stores. The byte goes to the address the pointer gives before anything is written: if
that is RAM it holds the stored register's old value afterwards; every other address reads as before, except
where the write moves the boot overlay or selects a bank; the parameters, IME, the latch, the cartridge, the boot
program and the flags stay; an event is added exactly when the address is in 0xE000..0xFDFF. -/
def Obligations.StoreReachesItsAddressOnly : Prop :=
  ∀ (s t : State) (i : Instr) (p : Pointer) (r : Reg8), storeOperands i = some (p, r) →
    exec i s = .next t →
    (isRamRegion (region (pointerAddress s p)) = true → readByte t (pointerAddress s p) = s.get8 r) ∧
    (∀ b, b ≠ pointerAddress s p → ¬ movesView s.params.addr (pointerAddress s p) b → readByte t b = readByte s b) ∧
    t.params = s.params ∧ t.ime = s.ime ∧ t.latch = s.latch ∧ t.cart = s.cart ∧ t.boot = s.boot ∧
    t.oracle = s.oracle ∧ t.regs.f = s.regs.f ∧
    t.events = s.events ++
      (if region (pointerAddress s p) = .unbacked then [⟨pointerAddress s p⟩] else [])

/-! Decrement and exclusive-or. -/

/-- Rules R140 to R147: `DEC r` puts `v - 1` modulo 256 in its register, sets Z iff `v = 1`, sets N, sets H iff
the low nibble of `v` was zero, keeps C, and advances PC by 1; nothing else changes. The second half is
where the opcode bytes are those of rule R86. -/
def Obligations.DecrementRegister : Prop :=
  (∀ s : State,
    exec .decB s =
      .next { s with regs := { s.regs with b := s.regs.b - 1#8, f := flagsAfterDec s.regs.b s.regs.f,
                                           pc := s.regs.pc + 1#16 } } ∧
    exec .decC s =
      .next { s with regs := { s.regs with c := s.regs.c - 1#8, f := flagsAfterDec s.regs.c s.regs.f,
                                           pc := s.regs.pc + 1#16 } } ∧
    exec .decD s =
      .next { s with regs := { s.regs with d := s.regs.d - 1#8, f := flagsAfterDec s.regs.d s.regs.f,
                                           pc := s.regs.pc + 1#16 } } ∧
    exec .decE s =
      .next { s with regs := { s.regs with e := s.regs.e - 1#8, f := flagsAfterDec s.regs.e s.regs.f,
                                           pc := s.regs.pc + 1#16 } } ∧
    exec .decH s =
      .next { s with regs := { s.regs with h := s.regs.h - 1#8, f := flagsAfterDec s.regs.h s.regs.f,
                                           pc := s.regs.pc + 1#16 } } ∧
    exec .decL s =
      .next { s with regs := { s.regs with l := s.regs.l - 1#8, f := flagsAfterDec s.regs.l s.regs.f,
                                           pc := s.regs.pc + 1#16 } } ∧
    exec .decA s =
      .next { s with regs := { s.regs with a := s.regs.a - 1#8, f := flagsAfterDec s.regs.a s.regs.f,
                                           pc := s.regs.pc + 1#16 } }) ∧
  (∀ s t : State, s.params.opcodes = defaultOpcodes →
    (Fetches s [0x05#8] t → step s = exec .decB t) ∧ (Fetches s [0x0D#8] t → step s = exec .decC t) ∧
    (Fetches s [0x15#8] t → step s = exec .decD t) ∧ (Fetches s [0x1D#8] t → step s = exec .decE t) ∧
    (Fetches s [0x25#8] t → step s = exec .decH t) ∧ (Fetches s [0x2D#8] t → step s = exec .decL t) ∧
    (Fetches s [0x3D#8] t → step s = exec .decA t))

/-- Rules R150 to R157: `XOR A,r` puts the exclusive-or in A, sets Z iff the result is zero, that is iff A was
equal to the operand, clears N, H and C, and advances PC by 1; nothing else changes. `XOR A,A` always gives
0 and Z. The second half is where the opcode bytes are those of rule R86. -/
def Obligations.ExclusiveOrWithRegister : Prop :=
  (∀ s : State,
    exec .xorB s = .next { s with regs := regsAfterXor s.regs s.regs.b } ∧
    exec .xorC s = .next { s with regs := regsAfterXor s.regs s.regs.c } ∧
    exec .xorD s = .next { s with regs := regsAfterXor s.regs s.regs.d } ∧
    exec .xorE s = .next { s with regs := regsAfterXor s.regs s.regs.e } ∧
    exec .xorH s = .next { s with regs := regsAfterXor s.regs s.regs.h } ∧
    exec .xorL s = .next { s with regs := regsAfterXor s.regs s.regs.l } ∧
    exec .xorA s =
      .next { s with regs := { s.regs with a := 0x00#8, f := ⟨true, false, false, false⟩,
                                           pc := s.regs.pc + 1#16 } }) ∧
  (∀ s t : State, s.params.opcodes = defaultOpcodes →
    (Fetches s [0xA8#8] t → step s = exec .xorB t) ∧ (Fetches s [0xA9#8] t → step s = exec .xorC t) ∧
    (Fetches s [0xAA#8] t → step s = exec .xorD t) ∧ (Fetches s [0xAB#8] t → step s = exec .xorE t) ∧
    (Fetches s [0xAC#8] t → step s = exec .xorH t) ∧ (Fetches s [0xAD#8] t → step s = exec .xorL t) ∧
    (Fetches s [0xAF#8] t → step s = exec .xorA t))

/-- Rule R163 (the spec's decision D4): `XOR A,(HL)` takes the byte at HL as its operand, whatever the address;
HL and memory stay. Only in the prohibited range is a free byte used up. The last clause is
where the opcode bytes are those of rule R86. -/
def Obligations.ExclusiveOrWithMemory : Prop :=
  (∀ s : State, ∃ t, exec .xorHL s = .next t ∧
    t.regs = regsAfterXor s.regs (readByte s (s.get16 .hl)) ∧
    t = { s with regs := t.regs, oracle := t.oracle } ∧
    (region (s.get16 .hl) ≠ .prohibited → t.oracle = s.oracle)) ∧
  (∀ s t : State, s.params.opcodes = defaultOpcodes → Fetches s [0xAE#8] t → step s = exec .xorHL t)

/-! Control transfer. -/

/-- Rule R170: `JP a16` sets PC to the 16-bit immediate, without the length advance; nothing else changes. A
jump to its own address is a fixed point of `step`. The last two
clauses are where the opcode bytes are those of rule R86. -/
def Obligations.AbsoluteJump : Prop :=
  (∀ (s : State) (a : Word), exec (.jp a) s = .next { s with regs := { s.regs with pc := a } }) ∧
  (∀ (s t : State) (b1 b2 : Byte), s.params.opcodes = defaultOpcodes → Fetches s [0xC3#8, b1, b2] t →
    step s = .next { t with regs := { t.regs with pc := joinBytes b2 b1 } }) ∧
  (∀ (s : State), s.params.opcodes = defaultOpcodes → s.events = [] →
    Fetches s [0xC3#8, loByte s.regs.pc, hiByte s.regs.pc] s → step s = .next s)

/-- Rule R171: `JR NZ,e8` advances PC past the instruction first, then adds the sign-extended displacement if
Z is clear; nothing else changes. The last clause is where the opcode bytes are
those of rule R86. -/
def Obligations.ConditionalRelativeJump : Prop :=
  (∀ (s : State) (e : Byte),
    (s.regs.f.z = true → exec (.jrNZ e) s = .next { s with regs := { s.regs with pc := s.regs.pc + 2#16 } }) ∧
    (s.regs.f.z = false →
      exec (.jrNZ e) s =
        .next { s with regs := { s.regs with pc := s.regs.pc + 2#16 + sext16 e } })) ∧
  (∀ (s t : State) (e : Byte), s.params.opcodes = defaultOpcodes → Fetches s [0x20#8, e] t →
    step s = exec (.jrNZ e) t)

/-- The assembler's relative jump (rule R91): the displacement it emits for a target in reach takes a jump whose
condition holds to that target, addresses wrapping. -/
def Obligations.AssembledRelativeJumpReachesItsTarget : Prop :=
  ∀ (s : State) (target : Word) (i : Instr), assembleJrNZ s.regs.pc target = some i →
    s.regs.f.z = false →
    exec i s = .next { s with regs := { s.regs with pc := target } }

/-- Rule R172: `NOP` advances PC by 1 and does nothing else. The second clause is where
the opcode bytes are those of rule R86. -/
def Obligations.NoOperation : Prop :=
  (∀ s : State, exec .nop s = .next { s with regs := { s.regs with pc := s.regs.pc + 1#16 } }) ∧
  (∀ s t : State, s.params.opcodes = defaultOpcodes → Fetches s [0x00#8] t →
    step s = .next { t with regs := { t.regs with pc := t.regs.pc + 1#16 } })

/-! Promises over the whole instruction set. -/

/-- The frame of the 29 instructions that are no stores: the parameters, memory, every memory-mapped register, BANK, IME, the
latch, the ROMs and the events stay, and every address outside the prohibited range reads as before. -/
def Obligations.OnlyStoresWriteMemory : Prop :=
  ∀ (i : Instr) (s t : State), i.kind ≠ .store → exec i s = .next t →
    t.params = s.params ∧ t.ram = s.ram ∧ t.io = s.io ∧ t.bank = s.bank ∧ t.ime = s.ime ∧
    t.latch = s.latch ∧ t.cart = s.cart ∧ t.boot = s.boot ∧ t.events = s.events ∧
    ∀ b, region b ≠ .prohibited → readByte t b = readByte s b

/-- The PC table of rule R14: every instruction but the jumps advances PC by its length modulo 65536. -/
def Obligations.ProgramCounterAfterInstruction : Prop :=
  ∀ (i : Instr) (s t : State), exec i s = .next t →
    (i.kind ≠ .jump → i.kind ≠ .jumpRelative → t.regs.pc = s.regs.pc + BitVec.ofNat 16 i.length) ∧
    (∀ a, i = .jp a → t.regs.pc = a) ∧
    (∀ e, i = .jrNZ e →
      t.regs.pc = if s.regs.f.z then s.regs.pc + 2#16 else s.regs.pc + 2#16 + sext16 e)

/-- The flags written, by the table of rule R16: a decrement of a register that held `v` sets Z iff the result is 0,
that is iff `v = 1`, sets N, sets H iff the low nibble of `v` is zero and keeps C; an exclusive-or sets Z iff A
becomes 0 and clears N, H and C. Every other instruction, and interrupt service, leaves F alone. -/
def Obligations.OnlyDecAndXorWriteFlags : Prop :=
  (∀ (i : Instr) (s t : State), exec i s = .next t →
    (i.kind ≠ .dec8 → i.kind ≠ .xor → t.regs.f = s.regs.f) ∧
    (i.kind = .dec8 → ∃ r, i.form.operands = [.reg r] ∧
      t.regs.f.z = decide (t.get8 r = 0x00#8) ∧ t.regs.f.z = decide (s.get8 r = 0x01#8) ∧
      t.regs.f.n = true ∧
      t.regs.f.h = decide (s.get8 r &&& 0x0F#8 = 0x00#8) ∧ t.regs.f.c = s.regs.f.c) ∧
    (i.kind = .xor → t.regs.f = ⟨t.regs.a == 0x00#8, false, false, false⟩)) ∧
  (∀ s : State, (serviceInterrupt s).regs.f = s.regs.f)

/-- The register table of rule R17: an 8-bit register other than F changes only where the instruction names it
as its destination, or its pair, or H and L as the pointer of (HL-); SP changes only by `LD SP,d16`. -/
def Obligations.RegistersChangeOnlyAsDestinations : Prop :=
  ∀ (i : Instr) (s t : State), exec i s = .next t →
    (t.regs.a ≠ s.regs.a → (∃ v, i = .ldAd8 v) ∨ i = .decA ∨ i.kind = .xor) ∧
    (t.regs.b ≠ s.regs.b → (∃ v, i = .ldBd8 v) ∨ i = .decB ∨ ∃ v, i = .ldBCd16 v) ∧
    (t.regs.c ≠ s.regs.c → (∃ v, i = .ldCd8 v) ∨ i = .decC ∨ ∃ v, i = .ldBCd16 v) ∧
    (t.regs.d ≠ s.regs.d → (∃ v, i = .ldDd8 v) ∨ i = .decD ∨ ∃ v, i = .ldDEd16 v) ∧
    (t.regs.e ≠ s.regs.e → (∃ v, i = .ldEd8 v) ∨ i = .decE ∨ ∃ v, i = .ldDEd16 v) ∧
    (t.regs.h ≠ s.regs.h → (∃ v, i = .ldHd8 v) ∨ i = .decH ∨ i = .stHLDecA ∨ ∃ v, i = .ldHLd16 v) ∧
    (t.regs.l ≠ s.regs.l → (∃ v, i = .ldLd8 v) ∨ i = .decL ∨ i = .stHLDecA ∨ ∃ v, i = .ldHLd16 v) ∧
    (t.regs.sp ≠ s.regs.sp → ∃ v, i = .ldSPd16 v)

/-- No instruction sets or clears IME (rule R19), sets the latch, or changes a ROM buffer (rule R23); none
changes LY or bits 2..0 of STAT (rule R28), or a parameter (rule R4). -/
def Obligations.NoInstructionReachesHiddenState : Prop :=
  ∀ (i : Instr) (s t : State), exec i s = .next t →
    t.params = s.params ∧ t.ime = s.ime ∧ t.latch = s.latch ∧ t.cart = s.cart ∧ t.boot = s.boot ∧
    t.io.ly = s.io.ly ∧ t.io.stat &&& 0x07#8 = s.io.stat &&& 0x07#8

/-! Interrupts. -/

/-- Rules R187 to R190: the queries read one bit of IE or IF; request and clear change one bit of IF and
nothing else; the pending predicate is `(IE & IF & 0x1F) != 0`, that is some source is enabled and requested. -/
def Obligations.InterruptControllerOperations : Prop :=
  ∀ (s : State) (n : Interrupt),
    isEnabled s n = s.io.ie.getLsbD (interruptBit n) ∧
    isRequested s n = s.io.intf.getLsbD (interruptBit n) ∧
    requestInterrupt s n =
      { s with io := { s.io with intf := s.io.intf ||| (1#8 <<< interruptBit n) } } ∧
    clearInterrupt s n =
      { s with io := { s.io with intf := s.io.intf &&& ~~~ (1#8 <<< interruptBit n) } } ∧
    (∀ m, isRequested (requestInterrupt s n) m = (decide (m = n) || isRequested s m)) ∧
    (∀ m, isRequested (clearInterrupt s n) m = (!decide (m = n) && isRequested s m)) ∧
    (anyInterruptPending s = true ↔ s.io.ie &&& s.io.intf &&& 0x1F#8 ≠ 0x00#8) ∧
    (anyInterruptPending s = true ↔ ∃ m, isEnabled s m = true ∧ isRequested s m = true)

/-- Rule R191 (the spec's decisions D8, D11): with no latch, IME set and a source pending, the step is interrupt
service and nothing else; otherwise it is one fetch and one instruction or fatal fault. -/
def Obligations.InterruptTakenAtStepBoundary : Prop :=
  ∀ s : State, s.latch = none →
    ((s.ime = true ∧ anyInterruptPending s = true) → step s = .next (serviceInterrupt s.clearEvents)) ∧
    (¬ (s.ime = true ∧ anyInterruptPending s = true) → step s = stepInstr s.clearEvents)

/-- Rule R192 (the spec's decisions D9, D10): service of the pending source with the lowest bit clears its
request and IME, decreases SP by 2, writes PC there, low byte first, and sets PC to the source's vector; no
other register changes. Where both stack bytes are RAM, the word at the new SP is the old PC. -/
def Obligations.InterruptServiceSequence : Prop :=
  ∀ (s : State) (n : Interrupt), isEnabled s n = true → isRequested s n = true →
    (∀ m, interruptBit m < interruptBit n → ¬ (isEnabled s m = true ∧ isRequested s m = true)) →
    let sp := s.regs.sp - 2#16
    let cleared : State :=
      { s with ime := false, regs := { s.regs with sp := sp },
               io := { s.io with intf := s.io.intf &&& ~~~ (1#8 <<< interruptBit n) } }
    serviceInterrupt s =
      { memWrite (memWrite cleared sp (loByte s.regs.pc)) (sp + 1#16) (hiByte s.regs.pc) with
        regs := { s.regs with sp := sp, pc := interruptVector s.params.vector n } } ∧
    (isRamRegion (region sp) = true → isRamRegion (region (sp + 1#16)) = true →
      readWord (serviceInterrupt s) sp = s.regs.pc)

/-- The bits of rule R186, whose vectors are the parameters VECTOR[0..4]; and the default vectors (the spec's
decision D9), which the model takes in `State.reset` by its own choice (log entry 7). -/
def Obligations.InterruptSourcesTable : Prop :=
  interruptBit .vBlank = 0 ∧ interruptBit .lcdStatus = 1 ∧ interruptBit .timer = 2 ∧
  interruptBit .serial = 3 ∧ interruptBit .joypad = 4 ∧
  (∀ v : Vectors, interruptVector v .vBlank = v.vBlank ∧ interruptVector v .lcdStatus = v.lcdStatus ∧
    interruptVector v .timer = v.timer ∧ interruptVector v .serial = v.serial ∧
    interruptVector v .joypad = v.joypad) ∧
  defaultParams.vector = ⟨0x0040#16, 0x0048#16, 0x0050#16, 0x0058#16, 0x0060#16⟩ ∧
  ∀ n, (interruptMask n).toNat = 2 ^ interruptBit n

/-- Interrupts do not nest and, from a state with IME clear, none is ever taken (rule R194, the spec's own
inference): over every run with every schedule of the environment, IME stays clear, so no step boundary takes
an interrupt, and the latch stays clear if it was. -/
def Obligations.NoInterruptOnceImeIsClear : Prop :=
  ∀ (schedule : List (List EnvCall)) (s t : State), s.ime = false → runScheduled schedule s = .next t →
    t.ime = false ∧ t.latch = s.latch ∧ ∀ calls, interruptDue (environmentRun t calls) = false

/-! The environment. -/

/-- Rules R197 and R198: the divider counts modulo 256; a timer tick counts, or on overflow reloads TIMA from
TMA and requests the timer interrupt; nothing else changes and TAC plays no part. -/
def Obligations.DividerAndTimerPrimitives : Prop :=
  ∀ s : State,
    environment s .incrementDivider = { s with io := { s.io with div := s.io.div + 1#8 } } ∧
    (s.io.tima = 0xFF#8 →
      environment s .timerTick =
        { s with io := { s.io with tima := s.io.tma, intf := s.io.intf ||| 0x04#8 } }) ∧
    (s.io.tima ≠ 0xFF#8 →
      environment s .timerTick = { s with io := { s.io with tima := s.io.tima + 1#8 } })

/-- Rules R199, R201 and R202. In every state the low bits of STAT and the joypad register are set by their
primitives, and nothing else changes. For LY below the parameter LY_PERIOD, which every run keeps, a scanline advance
sets LY to `(LY + 1) mod LY_PERIOD` and changes nothing else; that a state no run reaches is read otherwise is the
model's own reading (log entry 11). The default of LY_PERIOD, 154, is the model's choice in `State.reset` (log
entry 7). -/
def Obligations.ScanlineStatAndJoypadPrimitives : Prop :=
  (∀ (s : State) (m : BitVec 3) (v : Byte),
    (s.io.ly.toNat < s.params.lyPeriod →
      environment s .scanlineAdvance =
        { s with io := { s.io with ly := BitVec.ofNat 8 ((s.io.ly.toNat + 1) % s.params.lyPeriod) } }) ∧
    environment s (.setStatLow m) =
      { s with io := { s.io with stat := (s.io.stat &&& 0xF8#8) ||| m.setWidth 8 } } ∧
    environment s (.setJoypad v) = { s with io := { s.io with joyp := v } }) ∧
  defaultParams.lyPeriod = 154

/-- What the environment cannot do (rule R203, the spec's own inference): it changes no register but DIV, TIMA,
IF, LY, STAT bits 2..0 and JOYP, over any sequence of calls. -/
def Obligations.EnvironmentReachesItsRegistersOnly : Prop :=
  ∀ (s : State) (calls : List EnvCall),
    environmentRun s calls = { s with io := (environmentRun s calls).io } ∧
    (environmentRun s calls).io.audio = s.io.audio ∧ (environmentRun s calls).io.ie = s.io.ie ∧
    (environmentRun s calls).io.stat &&& 0xF8#8 = s.io.stat &&& 0xF8#8 ∧
    ∀ r, r ≠ .div → r ≠ .tima → r ≠ .intf → r ≠ .ly → r ≠ .stat → r ≠ .joyp →
      (environmentRun s calls).io.get r = s.io.get r

/-! Construction. -/

/-- Cartridge load (20_memory.md section 7), for every legal choice of the parameters (log entry 15): it fails on an
image below 0x4000 bytes, with its length, or with a controller type that is neither supported one, with that byte;
else the banks are the slices of the image, zero-padded, and N is `ceil(len / 0x4000) - 1`. The title is the 15 bytes
from TITLE_OFFSET on. The defaults 0x0134, 0x0147, 0x00 and 0x01 (the spec's decision D27), which `defaultParams`
has, are the model's choice where the host gives no others (log entry 7). -/
def Obligations.LoadChecksAndSlicesImage : Prop :=
  (∀ (p : Params) (image boot : List Byte), ParamsLegal p →
    (image.length < 0x4000 → construct p image boot = .error (.imageTooSmall image.length)) ∧
    (0x4000 ≤ image.length →
      (∀ k < 15, (cartridgeTitle p image)[k]? = image[p.titleOffset + k]?) ∧
      (cartridgeTitle p image).length = 15 ∧
      ∀ b, image[p.typeOffset]? = some b →
        (b ≠ p.typeNoBanking → b ≠ p.typeLinear →
          construct p image boot = .error (.unsupportedController b)) ∧
        (∀ c, (b = p.typeNoBanking ∧ c = .noBanking) ∨ (b = p.typeLinear ∧ c = .linearBanked) →
          ∃ s, construct p image boot = .ok s ∧ s.cart.controller = c ∧
            bankCount s * 0x4000 < image.length ∧ image.length ≤ (bankCount s + 1) * 0x4000 ∧
            (∀ k (hk : k < image.length), imageAt s k = image[k]) ∧
            (∀ k, image.length ≤ k → imageAt s k = 0x00#8)))) ∧
  defaultParams.titleOffset = 0x0134 ∧ defaultParams.typeOffset = 0x0147 ∧
  defaultParams.typeNoBanking = 0x00#8 ∧ defaultParams.typeLinear = 0x01#8

/-- Rule R228 with R220: from every choice of the parameters (rule R4), what is constructed is the reset state with
those parameters over the loaded cartridge and boot program, and the first fetch comes from the boot program. -/
def Obligations.ConstructionGivesResetState : Prop :=
  ∀ (p : Params) (image boot : List Byte) (s : State), construct p image boot = .ok s →
    s = State.resetWith p s.cart s.boot ∧
    ∀ k (hk : k < boot.length), k < 0x100 → readByte s (BitVec.ofNat 16 k) = boot[k]

/-! Invariants. -/

/-- The reset state meets the invariant. -/
def Obligations.ResetMeetsInvariant : Prop := Inv State.reset

/-- Every constructed state meets the invariant, whatever legal parameters it was constructed with. -/
def Obligations.ConstructedStateMeetsInvariant : Prop :=
  ∀ (p : Params) (image boot : List Byte) (s : State), ParamsLegal p → construct p image boot = .ok s → Inv s

/-- Every step keeps the invariant: legal parameters, the stores' canonical form, BANK in 1..max(N,1), LY below
its period. The state a fatal fault leaves meets it too. -/
def Obligations.StepKeepsInvariant : Prop :=
  ∀ s : State, Inv s →
    (∀ t, step s = .next t → Inv t) ∧
    (∀ op a t, step s = .fault (.decodeFault op a t) → Inv t)

/-- Every run, with every schedule of the environment, keeps the invariant and never changes a ROM buffer or a
parameter. -/
def Obligations.ScheduledRunKeepsInvariantAndRom : Prop :=
  ∀ (schedule : List (List EnvCall)) (s t : State), Inv s → runScheduled schedule s = .next t →
    Inv t ∧ t.params = s.params ∧ t.cart = s.cart ∧ t.boot = s.boot
end

