-- ==== Sys2Proof/Laws/Memory.lean ====
section
/-! SUPPORT. The laws of a sparse store: read after write, other keys unchanged, and every operation keeps
the canonical form. -/

namespace Sys2Proof.Machine

/-- Looking a key up in a list that has an entry in front. -/
theorem Memory.lookup_cons (j k : Nat) (v : Byte) (rest : Memory) :
    List.lookup j ((k, v) :: rest : Memory) = if j = k then some v else List.lookup j rest := by
  by_cases h : j = k
  · simp [h]
  · simp [List.lookup, show (j == k) = false by simp [h], h]

theorem Memory.drop_cons (j k : Nat) (v : Byte) (rest : Memory) :
    Memory.drop j ((k, v) :: rest) = if k = j then Memory.drop j rest else (k, v) :: Memory.drop j rest := by
  by_cases h : k = j <;> simp [Memory.drop, h]

theorem Memory.lookup_drop_same (k : Nat) (m : Memory) : (Memory.drop k m).lookup k = none := by
  induction m with
  | nil => rfl
  | cons c rest ih =>
    rw [Memory.drop_cons]
    split
    · exact ih
    · rw [Memory.lookup_cons, if_neg (by omega), ih]

theorem Memory.lookup_drop_other {k j : Nat} (h : j ≠ k) (m : Memory) :
    (Memory.drop k m).lookup j = m.lookup j := by
  induction m with
  | nil => rfl
  | cons c rest ih =>
    rw [Memory.drop_cons, Memory.lookup_cons]
    split
    · rw [if_neg (by omega), ih]
    · rw [Memory.lookup_cons, ih]

theorem Memory.lookup_put_same {k : Nat} {m : Memory} (v : Byte) (h : m.lookup k = none) :
    (Memory.put k v m).lookup k = some v := by
  induction m with
  | nil => simp [Memory.put]
  | cons c rest ih =>
    rw [Memory.lookup_cons] at h
    split at h
    · cases h
    next hne =>
      unfold Memory.put
      split
      · rw [Memory.lookup_cons, if_pos rfl]
      · rw [Memory.lookup_cons, if_neg hne, ih h]

theorem Memory.lookup_put_other {k j : Nat} (h : j ≠ k) (v : Byte) (m : Memory) :
    (Memory.put k v m).lookup j = m.lookup j := by
  induction m with
  | nil => rw [Memory.put, Memory.lookup_cons, if_neg h]
  | cons c rest ih =>
    unfold Memory.put
    split
    · rw [Memory.lookup_cons, if_neg h]
    · rw [Memory.lookup_cons, Memory.lookup_cons, ih]

/-- Read after write to the same key. -/
theorem Memory.read_write_same (d : Option Byte) (m : Memory) (k : Nat) (v : Byte) :
    Memory.read d (Memory.write d m k v) k = some v := by
  unfold Memory.read Memory.write
  by_cases hd : d = some v
  · rw [if_pos hd, Memory.lookup_drop_same]
    exact hd
  · rw [if_neg hd, Memory.lookup_put_same v (Memory.lookup_drop_same k m)]

/-- A write leaves every other key alone. -/
theorem Memory.read_write_other (d : Option Byte) (m : Memory) {k j : Nat} (v : Byte) (h : j ≠ k) :
    Memory.read d (Memory.write d m k v) j = Memory.read d m j := by
  unfold Memory.read Memory.write
  by_cases hd : d = some v
  · rw [if_pos hd, Memory.lookup_drop_other h]
  · rw [if_neg hd, Memory.lookup_put_other h, Memory.lookup_drop_other h]

theorem Memory.mem_put {k : Nat} {v : Byte} {m : Memory} {c : Host.Cell}
    (h : c ∈ Memory.put k v m) : c = (k, v) ∨ c ∈ m := by
  induction m with
  | nil => simpa [Memory.put] using h
  | cons x rest ih =>
    unfold Memory.put at h
    split at h
    · simpa using h
    · rcases List.mem_cons.mp h with h | h
      · exact .inr (by simp [h])
      · rcases ih h with h | h
        · exact .inl h
        · exact .inr (by simp [h])

theorem Memory.mem_drop {k : Nat} {m : Memory} {c : Host.Cell} (h : c ∈ Memory.drop k m) :
    c ∈ m ∧ c.1 ≠ k := by
  simpa [Memory.drop] using h

/-- What a written store lists: the written byte, or what was listed before. -/
theorem Memory.mem_write {d : Option Byte} {m : Memory} {k : Nat} {v : Byte} {c : Host.Cell}
    (h : c ∈ Memory.write d m k v) : (c = (k, v) ∧ d ≠ some v) ∨ c ∈ m := by
  unfold Memory.write at h
  split at h
  next => exact .inr (Memory.mem_drop h).1
  next hd =>
    rcases Memory.mem_put h with h | h
    · exact .inl ⟨h, hd⟩
    · exact .inr (Memory.mem_drop h).1

theorem Memory.put_rising {k : Nat} {v : Byte} {m : Memory}
    (hm : m.Pairwise (fun x y => x.1 < y.1)) (hk : ∀ c ∈ m, c.1 ≠ k) :
    (Memory.put k v m).Pairwise (fun x y => x.1 < y.1) := by
  induction m with
  | nil => simp [Memory.put]
  | cons x rest ih =>
    have hx := List.pairwise_cons.mp hm
    unfold Memory.put
    split
    next hlt =>
      refine List.pairwise_cons.mpr ⟨?_, hm⟩
      intro y hy
      rcases List.mem_cons.mp hy with rfl | hy
      · exact hlt
      · exact Nat.lt_trans hlt (hx.1 y hy)
    next hge =>
      refine List.pairwise_cons.mpr ⟨?_, ih hx.2 (fun c hc => hk c (by simp [hc]))⟩
      intro y hy
      have hne := hk x (by simp)
      rcases Memory.mem_put hy with rfl | hy
      · show x.1 < k
        omega
      · exact hx.1 y hy

/-- A write keeps the canonical form. -/
theorem Memory.write_wf {d : Option Byte} {m : Memory} (k : Nat) (v : Byte) (h : Memory.wf d m) :
    Memory.wf d (Memory.write d m k v) := by
  refine ⟨?_, ?_⟩
  · unfold Memory.write
    have hdrop : (Memory.drop k m).Pairwise (fun x y => x.1 < y.1) := h.1.filter _
    split
    · exact hdrop
    · exact Memory.put_rising hdrop (fun c hc => (Memory.mem_drop hc).2)
  · intro c hc
    rcases Memory.mem_write hc with ⟨rfl, hd⟩ | hc
    · exact hd
    · exact h.2 c hc

theorem Memory.mem_ofBytes {bs : List Byte} {k : Nat} {c : Host.Cell}
    (h : c ∈ Memory.ofBytes k bs) : k ≤ c.1 ∧ c.1 < k + bs.length := by
  induction bs generalizing k with
  | nil => simp [Memory.ofBytes] at h
  | cons b rest ih =>
    rcases List.mem_cons.mp h with rfl | h
    · simp
    · have := ih h
      simp only [List.length_cons]
      omega

/-- A loaded list of bytes is in canonical form. -/
theorem Memory.ofBytes_wf (k : Nat) (bs : List Byte) : Memory.wf none (Memory.ofBytes k bs) := by
  refine ⟨?_, fun c _ => by simp⟩
  induction bs generalizing k with
  | nil => simp [Memory.ofBytes]
  | cons b rest ih =>
    refine List.pairwise_cons.mpr ⟨?_, ih (k + 1)⟩
    intro c hc
    have := Memory.mem_ofBytes hc
    show k < c.1
    omega

/-- A loaded list of bytes reads back. -/
theorem Memory.read_ofBytes (k : Nat) (bs : List Byte) (i : Nat) (h : i < bs.length) :
    Memory.read none (Memory.ofBytes k bs) (k + i) = some bs[i] := by
  unfold Memory.read
  induction bs generalizing k i with
  | nil => simp at h
  | cons b rest ih =>
    cases i with
    | zero => simp [Memory.ofBytes]
    | succ i =>
      have hi : i < rest.length := by simpa using h
      have := ih (k + 1) i hi
      rw [show k + 1 + i = k + (i + 1) by omega] at this
      simpa [Memory.ofBytes, List.lookup_cons, show (k + (i + 1) == k) = false by simp] using this

end Sys2Proof.Machine
end

