-- ==== Sys2Proof/Laws/State.lean ====
section
/-! SUPPORT. What each update of the state does to each field: one lemma for each pair, so that no later
proof unfolds a record update. -/

namespace Sys2Proof.Machine

/-! `set8` -/

@[simp] theorem State.set8_params (s : State) (r : Reg8) (v : Byte) : (s.set8 r v).params = s.params := rfl
@[simp] theorem State.set8_regs (s : State) (r : Reg8) (v : Byte) : (s.set8 r v).regs = s.regs.set8 r v := rfl
@[simp] theorem State.set8_ime (s : State) (r : Reg8) (v : Byte) : (s.set8 r v).ime = s.ime := rfl
@[simp] theorem State.set8_bank (s : State) (r : Reg8) (v : Byte) : (s.set8 r v).bank = s.bank := rfl
@[simp] theorem State.set8_latch (s : State) (r : Reg8) (v : Byte) : (s.set8 r v).latch = s.latch := rfl
@[simp] theorem State.set8_ram (s : State) (r : Reg8) (v : Byte) : (s.set8 r v).ram = s.ram := rfl
@[simp] theorem State.set8_io (s : State) (r : Reg8) (v : Byte) : (s.set8 r v).io = s.io := rfl
@[simp] theorem State.set8_cart (s : State) (r : Reg8) (v : Byte) : (s.set8 r v).cart = s.cart := rfl
@[simp] theorem State.set8_boot (s : State) (r : Reg8) (v : Byte) : (s.set8 r v).boot = s.boot := rfl
@[simp] theorem State.set8_events (s : State) (r : Reg8) (v : Byte) : (s.set8 r v).events = s.events := rfl
@[simp] theorem State.set8_oracle (s : State) (r : Reg8) (v : Byte) : (s.set8 r v).oracle = s.oracle := rfl

/-! `set16` -/

@[simp] theorem State.set16_params (s : State) (p : Reg16) (v : Word) : (s.set16 p v).params = s.params := rfl
@[simp] theorem State.set16_regs (s : State) (p : Reg16) (v : Word) : (s.set16 p v).regs = s.regs.set16 p v := rfl
@[simp] theorem State.set16_ime (s : State) (p : Reg16) (v : Word) : (s.set16 p v).ime = s.ime := rfl
@[simp] theorem State.set16_bank (s : State) (p : Reg16) (v : Word) : (s.set16 p v).bank = s.bank := rfl
@[simp] theorem State.set16_latch (s : State) (p : Reg16) (v : Word) : (s.set16 p v).latch = s.latch := rfl
@[simp] theorem State.set16_ram (s : State) (p : Reg16) (v : Word) : (s.set16 p v).ram = s.ram := rfl
@[simp] theorem State.set16_io (s : State) (p : Reg16) (v : Word) : (s.set16 p v).io = s.io := rfl
@[simp] theorem State.set16_cart (s : State) (p : Reg16) (v : Word) : (s.set16 p v).cart = s.cart := rfl
@[simp] theorem State.set16_boot (s : State) (p : Reg16) (v : Word) : (s.set16 p v).boot = s.boot := rfl
@[simp] theorem State.set16_events (s : State) (p : Reg16) (v : Word) : (s.set16 p v).events = s.events := rfl
@[simp] theorem State.set16_oracle (s : State) (p : Reg16) (v : Word) : (s.set16 p v).oracle = s.oracle := rfl

/-! `setPc` -/

@[simp] theorem State.setPc_params (s : State) (v : Word) : (s.setPc v).params = s.params := rfl
@[simp] theorem State.setPc_regs (s : State) (v : Word) : (s.setPc v).regs = { s.regs with pc := v } := rfl
@[simp] theorem State.setPc_ime (s : State) (v : Word) : (s.setPc v).ime = s.ime := rfl
@[simp] theorem State.setPc_bank (s : State) (v : Word) : (s.setPc v).bank = s.bank := rfl
@[simp] theorem State.setPc_latch (s : State) (v : Word) : (s.setPc v).latch = s.latch := rfl
@[simp] theorem State.setPc_ram (s : State) (v : Word) : (s.setPc v).ram = s.ram := rfl
@[simp] theorem State.setPc_io (s : State) (v : Word) : (s.setPc v).io = s.io := rfl
@[simp] theorem State.setPc_cart (s : State) (v : Word) : (s.setPc v).cart = s.cart := rfl
@[simp] theorem State.setPc_boot (s : State) (v : Word) : (s.setPc v).boot = s.boot := rfl
@[simp] theorem State.setPc_events (s : State) (v : Word) : (s.setPc v).events = s.events := rfl
@[simp] theorem State.setPc_oracle (s : State) (v : Word) : (s.setPc v).oracle = s.oracle := rfl

/-! `advance` -/

@[simp] theorem State.advance_params (s : State) (n : Nat) : (s.advance n).params = s.params := rfl
@[simp] theorem State.advance_regs (s : State) (n : Nat) : (s.advance n).regs = { s.regs with pc := s.regs.pc + BitVec.ofNat 16 n } := rfl
@[simp] theorem State.advance_ime (s : State) (n : Nat) : (s.advance n).ime = s.ime := rfl
@[simp] theorem State.advance_bank (s : State) (n : Nat) : (s.advance n).bank = s.bank := rfl
@[simp] theorem State.advance_latch (s : State) (n : Nat) : (s.advance n).latch = s.latch := rfl
@[simp] theorem State.advance_ram (s : State) (n : Nat) : (s.advance n).ram = s.ram := rfl
@[simp] theorem State.advance_io (s : State) (n : Nat) : (s.advance n).io = s.io := rfl
@[simp] theorem State.advance_cart (s : State) (n : Nat) : (s.advance n).cart = s.cart := rfl
@[simp] theorem State.advance_boot (s : State) (n : Nat) : (s.advance n).boot = s.boot := rfl
@[simp] theorem State.advance_events (s : State) (n : Nat) : (s.advance n).events = s.events := rfl
@[simp] theorem State.advance_oracle (s : State) (n : Nat) : (s.advance n).oracle = s.oracle := rfl

/-! `setFlags` -/

@[simp] theorem State.setFlags_params (s : State) (f : Flags) : (s.setFlags f).params = s.params := rfl
@[simp] theorem State.setFlags_regs (s : State) (f : Flags) : (s.setFlags f).regs = { s.regs with f := f } := rfl
@[simp] theorem State.setFlags_ime (s : State) (f : Flags) : (s.setFlags f).ime = s.ime := rfl
@[simp] theorem State.setFlags_bank (s : State) (f : Flags) : (s.setFlags f).bank = s.bank := rfl
@[simp] theorem State.setFlags_latch (s : State) (f : Flags) : (s.setFlags f).latch = s.latch := rfl
@[simp] theorem State.setFlags_ram (s : State) (f : Flags) : (s.setFlags f).ram = s.ram := rfl
@[simp] theorem State.setFlags_io (s : State) (f : Flags) : (s.setFlags f).io = s.io := rfl
@[simp] theorem State.setFlags_cart (s : State) (f : Flags) : (s.setFlags f).cart = s.cart := rfl
@[simp] theorem State.setFlags_boot (s : State) (f : Flags) : (s.setFlags f).boot = s.boot := rfl
@[simp] theorem State.setFlags_events (s : State) (f : Flags) : (s.setFlags f).events = s.events := rfl
@[simp] theorem State.setFlags_oracle (s : State) (f : Flags) : (s.setFlags f).oracle = s.oracle := rfl

/-! `setIme` -/

@[simp] theorem State.setIme_params (s : State) (v : Bool) : (s.setIme v).params = s.params := rfl
@[simp] theorem State.setIme_regs (s : State) (v : Bool) : (s.setIme v).regs = s.regs := rfl
@[simp] theorem State.setIme_ime (s : State) (v : Bool) : (s.setIme v).ime = v := rfl
@[simp] theorem State.setIme_bank (s : State) (v : Bool) : (s.setIme v).bank = s.bank := rfl
@[simp] theorem State.setIme_latch (s : State) (v : Bool) : (s.setIme v).latch = s.latch := rfl
@[simp] theorem State.setIme_ram (s : State) (v : Bool) : (s.setIme v).ram = s.ram := rfl
@[simp] theorem State.setIme_io (s : State) (v : Bool) : (s.setIme v).io = s.io := rfl
@[simp] theorem State.setIme_cart (s : State) (v : Bool) : (s.setIme v).cart = s.cart := rfl
@[simp] theorem State.setIme_boot (s : State) (v : Bool) : (s.setIme v).boot = s.boot := rfl
@[simp] theorem State.setIme_events (s : State) (v : Bool) : (s.setIme v).events = s.events := rfl
@[simp] theorem State.setIme_oracle (s : State) (v : Bool) : (s.setIme v).oracle = s.oracle := rfl

/-! `setBank` -/

@[simp] theorem State.setBank_params (s : State) (v : Byte) : (s.setBank v).params = s.params := rfl
@[simp] theorem State.setBank_regs (s : State) (v : Byte) : (s.setBank v).regs = s.regs := rfl
@[simp] theorem State.setBank_ime (s : State) (v : Byte) : (s.setBank v).ime = s.ime := rfl
@[simp] theorem State.setBank_bank (s : State) (v : Byte) : (s.setBank v).bank = v := rfl
@[simp] theorem State.setBank_latch (s : State) (v : Byte) : (s.setBank v).latch = s.latch := rfl
@[simp] theorem State.setBank_ram (s : State) (v : Byte) : (s.setBank v).ram = s.ram := rfl
@[simp] theorem State.setBank_io (s : State) (v : Byte) : (s.setBank v).io = s.io := rfl
@[simp] theorem State.setBank_cart (s : State) (v : Byte) : (s.setBank v).cart = s.cart := rfl
@[simp] theorem State.setBank_boot (s : State) (v : Byte) : (s.setBank v).boot = s.boot := rfl
@[simp] theorem State.setBank_events (s : State) (v : Byte) : (s.setBank v).events = s.events := rfl
@[simp] theorem State.setBank_oracle (s : State) (v : Byte) : (s.setBank v).oracle = s.oracle := rfl

/-! `setLatch` -/

@[simp] theorem State.setLatch_params (s : State) (v : Option FatalFault) : (s.setLatch v).params = s.params := rfl
@[simp] theorem State.setLatch_regs (s : State) (v : Option FatalFault) : (s.setLatch v).regs = s.regs := rfl
@[simp] theorem State.setLatch_ime (s : State) (v : Option FatalFault) : (s.setLatch v).ime = s.ime := rfl
@[simp] theorem State.setLatch_bank (s : State) (v : Option FatalFault) : (s.setLatch v).bank = s.bank := rfl
@[simp] theorem State.setLatch_latch (s : State) (v : Option FatalFault) : (s.setLatch v).latch = v := rfl
@[simp] theorem State.setLatch_ram (s : State) (v : Option FatalFault) : (s.setLatch v).ram = s.ram := rfl
@[simp] theorem State.setLatch_io (s : State) (v : Option FatalFault) : (s.setLatch v).io = s.io := rfl
@[simp] theorem State.setLatch_cart (s : State) (v : Option FatalFault) : (s.setLatch v).cart = s.cart := rfl
@[simp] theorem State.setLatch_boot (s : State) (v : Option FatalFault) : (s.setLatch v).boot = s.boot := rfl
@[simp] theorem State.setLatch_events (s : State) (v : Option FatalFault) : (s.setLatch v).events = s.events := rfl
@[simp] theorem State.setLatch_oracle (s : State) (v : Option FatalFault) : (s.setLatch v).oracle = s.oracle := rfl

/-! `setRam` -/

@[simp] theorem State.setRam_params (s : State) (v : Memory) : (s.setRam v).params = s.params := rfl
@[simp] theorem State.setRam_regs (s : State) (v : Memory) : (s.setRam v).regs = s.regs := rfl
@[simp] theorem State.setRam_ime (s : State) (v : Memory) : (s.setRam v).ime = s.ime := rfl
@[simp] theorem State.setRam_bank (s : State) (v : Memory) : (s.setRam v).bank = s.bank := rfl
@[simp] theorem State.setRam_latch (s : State) (v : Memory) : (s.setRam v).latch = s.latch := rfl
@[simp] theorem State.setRam_ram (s : State) (v : Memory) : (s.setRam v).ram = v := rfl
@[simp] theorem State.setRam_io (s : State) (v : Memory) : (s.setRam v).io = s.io := rfl
@[simp] theorem State.setRam_cart (s : State) (v : Memory) : (s.setRam v).cart = s.cart := rfl
@[simp] theorem State.setRam_boot (s : State) (v : Memory) : (s.setRam v).boot = s.boot := rfl
@[simp] theorem State.setRam_events (s : State) (v : Memory) : (s.setRam v).events = s.events := rfl
@[simp] theorem State.setRam_oracle (s : State) (v : Memory) : (s.setRam v).oracle = s.oracle := rfl

/-! `setIo` -/

@[simp] theorem State.setIo_params (s : State) (v : Io) : (s.setIo v).params = s.params := rfl
@[simp] theorem State.setIo_regs (s : State) (v : Io) : (s.setIo v).regs = s.regs := rfl
@[simp] theorem State.setIo_ime (s : State) (v : Io) : (s.setIo v).ime = s.ime := rfl
@[simp] theorem State.setIo_bank (s : State) (v : Io) : (s.setIo v).bank = s.bank := rfl
@[simp] theorem State.setIo_latch (s : State) (v : Io) : (s.setIo v).latch = s.latch := rfl
@[simp] theorem State.setIo_ram (s : State) (v : Io) : (s.setIo v).ram = s.ram := rfl
@[simp] theorem State.setIo_io (s : State) (v : Io) : (s.setIo v).io = v := rfl
@[simp] theorem State.setIo_cart (s : State) (v : Io) : (s.setIo v).cart = s.cart := rfl
@[simp] theorem State.setIo_boot (s : State) (v : Io) : (s.setIo v).boot = s.boot := rfl
@[simp] theorem State.setIo_events (s : State) (v : Io) : (s.setIo v).events = s.events := rfl
@[simp] theorem State.setIo_oracle (s : State) (v : Io) : (s.setIo v).oracle = s.oracle := rfl

/-! `setCart` -/

@[simp] theorem State.setCart_params (s : State) (v : Cartridge) : (s.setCart v).params = s.params := rfl
@[simp] theorem State.setCart_regs (s : State) (v : Cartridge) : (s.setCart v).regs = s.regs := rfl
@[simp] theorem State.setCart_ime (s : State) (v : Cartridge) : (s.setCart v).ime = s.ime := rfl
@[simp] theorem State.setCart_bank (s : State) (v : Cartridge) : (s.setCart v).bank = s.bank := rfl
@[simp] theorem State.setCart_latch (s : State) (v : Cartridge) : (s.setCart v).latch = s.latch := rfl
@[simp] theorem State.setCart_ram (s : State) (v : Cartridge) : (s.setCart v).ram = s.ram := rfl
@[simp] theorem State.setCart_io (s : State) (v : Cartridge) : (s.setCart v).io = s.io := rfl
@[simp] theorem State.setCart_cart (s : State) (v : Cartridge) : (s.setCart v).cart = v := rfl
@[simp] theorem State.setCart_boot (s : State) (v : Cartridge) : (s.setCart v).boot = s.boot := rfl
@[simp] theorem State.setCart_events (s : State) (v : Cartridge) : (s.setCart v).events = s.events := rfl
@[simp] theorem State.setCart_oracle (s : State) (v : Cartridge) : (s.setCart v).oracle = s.oracle := rfl

/-! `setBoot` -/

@[simp] theorem State.setBoot_params (s : State) (v : Memory) : (s.setBoot v).params = s.params := rfl
@[simp] theorem State.setBoot_regs (s : State) (v : Memory) : (s.setBoot v).regs = s.regs := rfl
@[simp] theorem State.setBoot_ime (s : State) (v : Memory) : (s.setBoot v).ime = s.ime := rfl
@[simp] theorem State.setBoot_bank (s : State) (v : Memory) : (s.setBoot v).bank = s.bank := rfl
@[simp] theorem State.setBoot_latch (s : State) (v : Memory) : (s.setBoot v).latch = s.latch := rfl
@[simp] theorem State.setBoot_ram (s : State) (v : Memory) : (s.setBoot v).ram = s.ram := rfl
@[simp] theorem State.setBoot_io (s : State) (v : Memory) : (s.setBoot v).io = s.io := rfl
@[simp] theorem State.setBoot_cart (s : State) (v : Memory) : (s.setBoot v).cart = s.cart := rfl
@[simp] theorem State.setBoot_boot (s : State) (v : Memory) : (s.setBoot v).boot = v := rfl
@[simp] theorem State.setBoot_events (s : State) (v : Memory) : (s.setBoot v).events = s.events := rfl
@[simp] theorem State.setBoot_oracle (s : State) (v : Memory) : (s.setBoot v).oracle = s.oracle := rfl

/-! `setEvents` -/

@[simp] theorem State.setEvents_params (s : State) (v : List MemoryFault) : (s.setEvents v).params = s.params := rfl
@[simp] theorem State.setEvents_regs (s : State) (v : List MemoryFault) : (s.setEvents v).regs = s.regs := rfl
@[simp] theorem State.setEvents_ime (s : State) (v : List MemoryFault) : (s.setEvents v).ime = s.ime := rfl
@[simp] theorem State.setEvents_bank (s : State) (v : List MemoryFault) : (s.setEvents v).bank = s.bank := rfl
@[simp] theorem State.setEvents_latch (s : State) (v : List MemoryFault) : (s.setEvents v).latch = s.latch := rfl
@[simp] theorem State.setEvents_ram (s : State) (v : List MemoryFault) : (s.setEvents v).ram = s.ram := rfl
@[simp] theorem State.setEvents_io (s : State) (v : List MemoryFault) : (s.setEvents v).io = s.io := rfl
@[simp] theorem State.setEvents_cart (s : State) (v : List MemoryFault) : (s.setEvents v).cart = s.cart := rfl
@[simp] theorem State.setEvents_boot (s : State) (v : List MemoryFault) : (s.setEvents v).boot = s.boot := rfl
@[simp] theorem State.setEvents_events (s : State) (v : List MemoryFault) : (s.setEvents v).events = v := rfl
@[simp] theorem State.setEvents_oracle (s : State) (v : List MemoryFault) : (s.setEvents v).oracle = s.oracle := rfl

/-! `setOracle` -/

@[simp] theorem State.setOracle_params (s : State) (v : Nat) : (s.setOracle v).params = s.params := rfl
@[simp] theorem State.setOracle_regs (s : State) (v : Nat) : (s.setOracle v).regs = s.regs := rfl
@[simp] theorem State.setOracle_ime (s : State) (v : Nat) : (s.setOracle v).ime = s.ime := rfl
@[simp] theorem State.setOracle_bank (s : State) (v : Nat) : (s.setOracle v).bank = s.bank := rfl
@[simp] theorem State.setOracle_latch (s : State) (v : Nat) : (s.setOracle v).latch = s.latch := rfl
@[simp] theorem State.setOracle_ram (s : State) (v : Nat) : (s.setOracle v).ram = s.ram := rfl
@[simp] theorem State.setOracle_io (s : State) (v : Nat) : (s.setOracle v).io = s.io := rfl
@[simp] theorem State.setOracle_cart (s : State) (v : Nat) : (s.setOracle v).cart = s.cart := rfl
@[simp] theorem State.setOracle_boot (s : State) (v : Nat) : (s.setOracle v).boot = s.boot := rfl
@[simp] theorem State.setOracle_events (s : State) (v : Nat) : (s.setOracle v).events = s.events := rfl
@[simp] theorem State.setOracle_oracle (s : State) (v : Nat) : (s.setOracle v).oracle = v := rfl

/-! `emit` -/

@[simp] theorem State.emit_params (s : State) (e : MemoryFault) : (s.emit e).params = s.params := rfl
@[simp] theorem State.emit_regs (s : State) (e : MemoryFault) : (s.emit e).regs = s.regs := rfl
@[simp] theorem State.emit_ime (s : State) (e : MemoryFault) : (s.emit e).ime = s.ime := rfl
@[simp] theorem State.emit_bank (s : State) (e : MemoryFault) : (s.emit e).bank = s.bank := rfl
@[simp] theorem State.emit_latch (s : State) (e : MemoryFault) : (s.emit e).latch = s.latch := rfl
@[simp] theorem State.emit_ram (s : State) (e : MemoryFault) : (s.emit e).ram = s.ram := rfl
@[simp] theorem State.emit_io (s : State) (e : MemoryFault) : (s.emit e).io = s.io := rfl
@[simp] theorem State.emit_cart (s : State) (e : MemoryFault) : (s.emit e).cart = s.cart := rfl
@[simp] theorem State.emit_boot (s : State) (e : MemoryFault) : (s.emit e).boot = s.boot := rfl
@[simp] theorem State.emit_events (s : State) (e : MemoryFault) : (s.emit e).events = s.events ++ [e] := rfl
@[simp] theorem State.emit_oracle (s : State) (e : MemoryFault) : (s.emit e).oracle = s.oracle := rfl

/-! `clearEvents` -/

@[simp] theorem State.clearEvents_regs (s : State) : s.clearEvents.regs = s.regs := rfl
@[simp] theorem State.clearEvents_ime (s : State) : s.clearEvents.ime = s.ime := rfl
@[simp] theorem State.clearEvents_bank (s : State) : s.clearEvents.bank = s.bank := rfl
@[simp] theorem State.clearEvents_latch (s : State) : s.clearEvents.latch = s.latch := rfl
@[simp] theorem State.clearEvents_ram (s : State) : s.clearEvents.ram = s.ram := rfl
@[simp] theorem State.clearEvents_io (s : State) : s.clearEvents.io = s.io := rfl
@[simp] theorem State.clearEvents_cart (s : State) : s.clearEvents.cart = s.cart := rfl
@[simp] theorem State.clearEvents_boot (s : State) : s.clearEvents.boot = s.boot := rfl
@[simp] theorem State.clearEvents_events (s : State) : s.clearEvents.events = [] := rfl
@[simp] theorem State.clearEvents_oracle (s : State) : s.clearEvents.oracle = s.oracle := rfl

/-- A state with no events is not changed by clearing them. -/
theorem State.clearEvents_of_nil {s : State} (h : s.events = []) : s.clearEvents = s := by
  cases s; cases h; rfl

/-! The Register File. -/

@[simp] theorem Regs.set8_pc (g : Regs) (r : Reg8) (v : Byte) : (g.set8 r v).pc = g.pc := by
  cases r <;> rfl

@[simp] theorem Regs.set8_sp (g : Regs) (r : Reg8) (v : Byte) : (g.set8 r v).sp = g.sp := by
  cases r <;> rfl

@[simp] theorem Regs.set16_pc (g : Regs) (p : Reg16) (v : Word) : (g.set16 p v).pc = g.pc := by
  cases p <;> rfl

/-- A register is written to F only through F itself or AF. -/
theorem Regs.set8_f {g : Regs} {r : Reg8} (v : Byte) (h : r ≠ .f) : (g.set8 r v).f = g.f := by
  cases r <;> first | rfl | exact absurd rfl h

theorem Regs.set16_f {g : Regs} {p : Reg16} (v : Word) (h : p ≠ .af) : (g.set16 p v).f = g.f := by
  cases p <;> first | rfl | exact absurd rfl h

/-- Reading back the register just written, F excepted (rule R10). -/
theorem Regs.get8_set8_same {g : Regs} {r : Reg8} (v : Byte) (h : r ≠ .f) :
    (g.set8 r v).get8 r = v := by
  cases r <;> first | rfl | exact absurd rfl h

/-- "No side effects beyond the mutated field" (rule R10). -/
theorem Regs.get8_set8_other {g : Regs} {r q : Reg8} (v : Byte) (h : q ≠ r) :
    (g.set8 r v).get8 q = g.get8 q := by
  cases r <;> cases q <;> first | rfl | exact absurd rfl h

@[simp] theorem hiByte_joinBytes (h l : Byte) : hiByte (joinBytes h l) = h := by
  apply BitVec.eq_of_getLsbD_eq
  intro i hi
  simp [hiByte, joinBytes, hi, show ¬ (8 + i < 8) by omega, show 8 + i < 16 by omega]

@[simp] theorem loByte_joinBytes (h l : Byte) : loByte (joinBytes h l) = l := by
  apply BitVec.eq_of_getLsbD_eq
  intro i hi
  simp [loByte, joinBytes, hi, show i < 16 by omega]

/-- A word is its two halves (rules R11, R60). -/
@[simp] theorem joinBytes_hi_lo (v : Word) : joinBytes (hiByte v) (loByte v) = v := by
  apply BitVec.eq_of_getLsbD_eq
  intro i hi
  by_cases h : i < 8
  · simp [hiByte, loByte, joinBytes, h, hi]
  · simp [hiByte, loByte, joinBytes, h, hi, show i - 8 < 8 by omega, show 8 + (i - 8) = i by omega]

/-- What is stored by a write of F's own byte is F (rule R15). -/
@[simp] theorem flagsOfByte_flagsByte (f : Flags) : flagsOfByte (flagsByte f) = f := by
  obtain ⟨z, n, h, c⟩ := f
  revert z n h c
  decide

/-- "A write to F stores `v & 0xF0`" (rules R6, R15). -/
theorem flagsByte_flagsOfByte (v : Byte) : flagsByte (flagsOfByte v) = v &&& 0xF0#8 := by
  revert v
  decide

end Sys2Proof.Machine
end

