-- ==== Sys2Proof/Laws/Bus.lean ====
section
/-! SUPPORT. What a byte read and a byte write can do: the regions, the I/O dispatch, the parts of the state
a write leaves alone, and what a read sees after a write. -/

namespace Sys2Proof.Machine

/-! Regions (rule R41). -/

/-- The bounds of a region, by its name (rule R41). -/
def regionBounds : Region → Nat × Nat
  | .fixedRom => (0x0000, 0x3FFF)
  | .switchRom => (0x4000, 0x7FFF)
  | .vram => (0x8000, 0x9FFF)
  | .eram => (0xA000, 0xBFFF)
  | .wram0 => (0xC000, 0xCFFF)
  | .wram1 => (0xD000, 0xDFFF)
  | .unbacked => (0xE000, 0xFDFF)
  | .oam => (0xFE00, 0xFE9F)
  | .prohibited => (0xFEA0, 0xFEFF)
  | .io => (0xFF00, 0xFF7F)
  | .hram => (0xFF80, 0xFFFE)
  | .ie => (0xFFFF, 0xFFFF)

/-- An address lies within the bounds of its region. -/
theorem region_bounds (a : Word) :
    (regionBounds (region a)).1 ≤ a.toNat ∧ a.toNat ≤ (regionBounds (region a)).2 := by
  have := a.isLt
  unfold region
  repeat' split
  all_goals simp only [regionBounds]; omega

/-- An address within the bounds of a region is of that region. -/
theorem region_of_bounds {a : Word} {r : Region} (h1 : (regionBounds r).1 ≤ a.toNat)
    (h2 : a.toNat ≤ (regionBounds r).2) : region a = r := by
  have := region_bounds a
  generalize region a = q at this
  cases r <;> cases q <;> first | rfl | (simp only [regionBounds] at *; omega)

theorem isRamRegion_iff (a : Word) : isRamRegion (region a) = isRamKey a.toNat := by
  have := region_bounds a
  generalize region a = q at this
  rw [Bool.eq_iff_iff]
  cases q <;> simp only [regionBounds] at this <;> simp [isRamRegion, isRamKey] <;> omega

/-! The I/O dispatch (rule R25). -/

theorem mem_allIoRegs (r : IoReg) : r ∈ allIoRegs := by
  cases r <;> simp [allIoRegs]

theorem ioAddr_of_ioRegAt {d : IoAddresses} {a : Word} {r : IoReg} (h : ioRegAt d a = some r) :
    ioAddr d r = a := by
  simpa using List.find?_some h

/-- Where the addresses are distinct, each register is found at its own (rule R25). -/
theorem ioRegAt_ioAddr {p : Params} (hp : ParamsLegal p) (r : IoReg) :
    ioRegAt p.addr (ioAddr p.addr r) = some r := by
  cases h : ioRegAt p.addr (ioAddr p.addr r) with
  | none => simpa using List.find?_eq_none.mp h r (mem_allIoRegs r)
  | some q => rw [hp.addrDistinct q r (ioAddr_of_ioRegAt h)]

@[simp] theorem Io.get_set_same (x : Io) (r : IoReg) (v : Byte) : (x.set r v).get r = v := by
  cases r <;> rfl

theorem Io.get_set_other (x : Io) {r q : IoReg} (v : Byte) (h : q ≠ r) :
    (x.set r v).get q = x.get q := by
  cases r <;> cases q <;> first | rfl | exact absurd rfl h

@[simp] theorem Io.set_audio (x : Io) (r : IoReg) (v : Byte) : (x.set r v).audio = x.audio := by
  cases r <;> rfl

@[simp] theorem Io.set_ie (x : Io) (r : IoReg) (v : Byte) : (x.set r v).ie = x.ie := by
  cases r <;> rfl

@[simp] theorem writeIoReg_audio (x : Io) (r : IoReg) (v : Byte) :
    (writeIoReg x r v).audio = x.audio := by
  cases r <;> rfl

@[simp] theorem writeIoReg_ie (x : Io) (r : IoReg) (v : Byte) : (writeIoReg x r v).ie = x.ie := by
  cases r <;> rfl

/-- A CPU write to one register leaves every other one alone. -/
theorem writeIoReg_other (x : Io) {r q : IoReg} (v : Byte) (h : q ≠ r) :
    (writeIoReg x r v).get q = x.get q := by
  cases r <;> exact Io.get_set_other x _ h

/-- A CPU write to a register other than DIV, STAT and LY stores the byte whole (rule R56). -/
theorem writeIoReg_plain (x : Io) {r : IoReg} (v : Byte) (h1 : r ≠ .div) (h2 : r ≠ .stat)
    (h3 : r ≠ .ly) : writeIoReg x r v = x.set r v := by
  cases r <;> first | rfl | contradiction

/-- No CPU write changes LY or the low bits of STAT (rule R28). -/
theorem writeIoReg_ly (x : Io) (r : IoReg) (v : Byte) : (writeIoReg x r v).ly = x.ly := by
  cases r <;> rfl

theorem statAfterWrite_low (old v : Byte) : statAfterWrite old v &&& 0x07#8 = old &&& 0x07#8 := by
  apply BitVec.eq_of_getLsbD_eq
  intro i hi
  have : i = 0 ∨ i = 1 ∨ i = 2 ∨ i = 3 ∨ i = 4 ∨ i = 5 ∨ i = 6 ∨ i = 7 := by omega
  rcases this with rfl | rfl | rfl | rfl | rfl | rfl | rfl | rfl <;> simp [statAfterWrite]

theorem writeIoReg_stat_low (x : Io) (r : IoReg) (v : Byte) :
    (writeIoReg x r v).stat &&& 0x07#8 = x.stat &&& 0x07#8 := by
  cases r <;> first | rfl | exact statAfterWrite_low x.stat v

/-! A byte write, by the region of its address: everything it can do. -/

/-- Everything a byte write can do (rules R49 to R57). -/
theorem memWrite_cases (s : State) (a : Word) (v : Byte) :
    (region a = .unbacked ∧ memWrite s a v = s.emit ⟨a⟩) ∨
    ((region a = .fixedRom ∨ region a = .prohibited ∨
        (region a = .switchRom ∧ s.cart.controller = .noBanking) ∨
        (region a = .io ∧ ioRegAt s.params.addr a = none ∧ isAudio s.params.addr a = false)) ∧ memWrite s a v = s) ∨
    (region a = .switchRom ∧ s.cart.controller = .linearBanked ∧
        memWrite s a v = s.setBank (clampBank (bankCount s) v)) ∨
    (isRamRegion (region a) = true ∧ memWrite s a v = writeRam s a v) ∨
    (∃ r, region a = .io ∧ ioRegAt s.params.addr a = some r ∧ memWrite s a v = s.setIo (writeIoReg s.io r v)) ∨
    (region a = .io ∧ ioRegAt s.params.addr a = none ∧ isAudio s.params.addr a = true ∧
        memWrite s a v = s.setIo (writeAudio s.io a v)) ∨
    (region a = .ie ∧ memWrite s a v = s.setIo { s.io with ie := v }) := by
  unfold memWrite writeByte
  cases hr : region a <;> simp [isRamRegion]
  case switchRom => unfold writeBank; cases s.cart.controller <;> simp
  case io =>
    unfold writeIo
    cases ioRegAt s.params.addr a with
    | some r => simp
    | none => cases isAudio s.params.addr a <;> simp

@[simp] theorem memWrite_regs (s : State) (a : Word) (v : Byte) : (memWrite s a v).regs = s.regs := by
  rcases memWrite_cases s a v with ⟨_, h⟩ | ⟨_, h⟩ | ⟨_, _, h⟩ | ⟨_, h⟩ | ⟨_, _, _, h⟩ | ⟨_, _, _, h⟩ | ⟨_, h⟩ <;>
    simp [h, writeRam]

@[simp] theorem memWrite_params (s : State) (a : Word) (v : Byte) :
    (memWrite s a v).params = s.params := by
  rcases memWrite_cases s a v with ⟨_, h⟩ | ⟨_, h⟩ | ⟨_, _, h⟩ | ⟨_, h⟩ | ⟨_, _, _, h⟩ | ⟨_, _, _, h⟩ | ⟨_, h⟩ <;>
    simp [h, writeRam]

@[simp] theorem memWrite_ime (s : State) (a : Word) (v : Byte) : (memWrite s a v).ime = s.ime := by
  rcases memWrite_cases s a v with ⟨_, h⟩ | ⟨_, h⟩ | ⟨_, _, h⟩ | ⟨_, h⟩ | ⟨_, _, _, h⟩ | ⟨_, _, _, h⟩ | ⟨_, h⟩ <;>
    simp [h, writeRam]

@[simp] theorem memWrite_latch (s : State) (a : Word) (v : Byte) : (memWrite s a v).latch = s.latch := by
  rcases memWrite_cases s a v with ⟨_, h⟩ | ⟨_, h⟩ | ⟨_, _, h⟩ | ⟨_, h⟩ | ⟨_, _, _, h⟩ | ⟨_, _, _, h⟩ | ⟨_, h⟩ <;>
    simp [h, writeRam]

@[simp] theorem memWrite_cart (s : State) (a : Word) (v : Byte) : (memWrite s a v).cart = s.cart := by
  rcases memWrite_cases s a v with ⟨_, h⟩ | ⟨_, h⟩ | ⟨_, _, h⟩ | ⟨_, h⟩ | ⟨_, _, _, h⟩ | ⟨_, _, _, h⟩ | ⟨_, h⟩ <;>
    simp [h, writeRam]

@[simp] theorem memWrite_boot (s : State) (a : Word) (v : Byte) : (memWrite s a v).boot = s.boot := by
  rcases memWrite_cases s a v with ⟨_, h⟩ | ⟨_, h⟩ | ⟨_, _, h⟩ | ⟨_, h⟩ | ⟨_, _, _, h⟩ | ⟨_, _, _, h⟩ | ⟨_, h⟩ <;>
    simp [h, writeRam]

@[simp] theorem memWrite_oracle (s : State) (a : Word) (v : Byte) :
    (memWrite s a v).oracle = s.oracle := by
  rcases memWrite_cases s a v with ⟨_, h⟩ | ⟨_, h⟩ | ⟨_, _, h⟩ | ⟨_, h⟩ | ⟨_, _, _, h⟩ | ⟨_, _, _, h⟩ | ⟨_, h⟩ <;>
    simp [h, writeRam]

/-- A byte write emits one MemoryFault in 0xE000..0xFDFF and nothing elsewhere (rules R54, R183). -/
theorem memWrite_events (s : State) (a : Word) (v : Byte) :
    (memWrite s a v).events = s.events ++ (if region a = .unbacked then [⟨a⟩] else []) := by
  rcases memWrite_cases s a v with ⟨hr, h⟩ | ⟨hr, h⟩ | ⟨hr, _, h⟩ | ⟨hr, h⟩ | ⟨_, hr, _, h⟩ | ⟨hr, _, _, h⟩ | ⟨hr, h⟩
  · simp [h, hr]
  · rcases hr with hr | hr | ⟨hr, _⟩ | ⟨hr, _⟩ <;> simp [h, hr]
  · simp [h, hr]
  · have : region a ≠ .unbacked := fun hu => by simp [hu, isRamRegion] at hr
    simp [h, writeRam, this]
  all_goals simp [h, hr]

/-! What a read depends on. -/

/-- Two states read alike at an address if what the address's region reads is the same in both. -/
theorem readByte_congr {s t : State} {a : Word} (hp : t.params = s.params) (hram : readRam t a = readRam s a)
    (hfix : region a = .fixedRom → readFixedRom t a = readFixedRom s a)
    (hsw : region a = .switchRom → readSwitchRom t a = readSwitchRom s a)
    (hio : region a = .io → readIo t a = readIo s a) (hie : t.io.ie = s.io.ie ∨ region a ≠ .ie)
    (ho : t.oracle = s.oracle ∨ region a ≠ .prohibited) : readByte t a = readByte s a := by
  unfold readByte
  cases hr : region a
  case fixedRom => exact hfix hr
  case switchRom => exact hsw hr
  case unbacked => simp only [hp]
  case prohibited =>
    rcases ho with ho | ho
    · simp only [ho]
    · exact absurd hr ho
  case io => exact hio hr
  case ie =>
    rcases hie with hie | hie
    · exact hie
    · exact absurd hr hie
  all_goals exact hram

/-- Registers, IME, the latch and the events play no part in a read (rules R43 to R48). -/
theorem readByte_of_same_memory {s t : State} (a : Word) (hp : t.params = s.params) (hram : t.ram = s.ram) (hio : t.io = s.io)
    (hbank : t.bank = s.bank) (hcart : t.cart = s.cart) (hboot : t.boot = s.boot)
    (ho : t.oracle = s.oracle ∨ region a ≠ .prohibited) : readByte t a = readByte s a := by
  cases s
  cases t
  subst hp hram hio hbank hcart hboot
  exact readByte_congr rfl rfl (fun _ => rfl) (fun _ => rfl) (fun _ => rfl) (.inl rfl) ho

theorem readRam_writeRam_other (s : State) {a b : Word} (v : Byte) (h : b ≠ a) :
    readRam (writeRam s a v) b = readRam s b := by
  have hk : b.toNat ≠ a.toNat := fun hk => h (BitVec.eq_of_toNat_eq hk)
  simp [readRam, writeRam, Memory.read_write_other none s.ram v hk]

/-- A RAM byte reads back what was written (rules R46, R53). -/
theorem readByte_writeRam_same (s : State) {a : Word} (v : Byte) (h : isRamRegion (region a) = true) :
    readByte (writeRam s a v) a = v := by
  have hread : readRam (writeRam s a v) a = v := by
    simp [readRam, writeRam, Memory.read_write_same]
  unfold readByte
  cases hr : region a
  case fixedRom | switchRom | unbacked | prohibited | io | ie => rw [hr] at h; cases h
  all_goals exact hread

theorem isAudio_region {p : Params} (hp : ParamsLegal p) {a : Word} (h : isAudio p.addr a = true) :
    region a = .io := by
  obtain ⟨x, hx, hb⟩ := List.any_eq_true.mp h
  have hw := hp.audioInWindow x hx
  simp only [Bool.and_eq_true, decide_eq_true_eq] at hb
  exact region_of_bounds (r := .io) (by simp only [regionBounds]; omega)
    (by simp only [regionBounds]; omega)

/-- No named register lies in `AUDIO_RANGE` (rule R25). -/
theorem isAudio_ioRegAt {p : Params} (hp : ParamsLegal p) {a : Word} (h : isAudio p.addr a = true) :
    ioRegAt p.addr a = none := by
  cases hr : ioRegAt p.addr a with
  | none => rfl
  | some r =>
    have ha := hp.audioApart r
    rw [ioAddr_of_ioRegAt hr, h] at ha
    cases ha

theorem ioRegAt_none {d : IoAddresses} {a : Word} (h : ∀ r, ioAddr d r ≠ a) : ioRegAt d a = none := by
  cases hr : ioRegAt d a with
  | none => rfl
  | some r => exact absurd (ioAddr_of_ioRegAt hr) (h r)

theorem readByte_io {s : State} {a : Word} (h : region a = .io) : readByte s a = readIo s a := by
  unfold readByte
  rw [h]

theorem writeByte_io {s : State} {a : Word} (v : Byte) (h : region a = .io) :
    writeByte s a v = .ok (writeIo s a v) := by
  unfold writeByte
  rw [h]

/-- A read in a RAM region is a read of the RAM store (rule R46). -/
theorem readByte_ram {s : State} {a : Word} (h : isRamRegion (region a) = true) :
    readByte s a = readRam s a := by
  unfold readByte
  cases hr : region a <;> rw [hr] at h <;> first | rfl | cases h

theorem isAudio_eq_isAudioKey (d : IoAddresses) (a : Word) : isAudio d a = isAudioKey d a.toNat := rfl

/-- Plain storage reads back what a byte write put there (rule R59). -/
theorem readByte_memWrite_plain (s : State) {a : Word} (v : Byte) (h : plainStorage s.params.addr a = true) :
    readByte (memWrite s a v) a = v := by
  rcases memWrite_cases s a v with ⟨hr, e⟩ | ⟨hr, e⟩ | ⟨hr, _, e⟩ | ⟨hr, e⟩ | ⟨r, hr, hi, e⟩ |
    ⟨hr, hn, ha, e⟩ | ⟨hr, e⟩ <;> rw [e]
  · simp [plainStorage, hr, isRamRegion] at h
  · rcases hr with hr | hr | ⟨hr, _⟩ | ⟨hr, hi, ha⟩ <;> simp [plainStorage, isRamRegion, *] at h
  · simp [plainStorage, hr, isRamRegion] at h
  · exact readByte_writeRam_same s v hr
  · simp only [plainStorage, hr, isRamRegion, hi] at h
    have h3 : (r ≠ .div ∧ r ≠ .stat) ∧ r ≠ .ly := by simpa using h
    rw [readByte_io hr]
    simp only [readIo, State.setIo_params, hi]
    rw [writeIoReg_plain _ _ h3.1.1 h3.1.2 h3.2]
    simp
  · rw [readByte_io hr]
    simp only [readIo, State.setIo_params, hn, ha]
    simp [audioAt, writeAudio, Memory.read_write_same]
  · unfold readByte
    rw [hr]
    rfl

end Sys2Proof.Machine
end

