-- ==== Sys2Proof/Laws/Decode.lean ====
section
/-! SUPPORT. What the opcode map and the decoder give, for any opcode bytes. -/

namespace Sys2Proof

/-- The decoder knows an opcode exactly when its row gives a length. -/
theorem opcodeLength_none {o : Opcodes} {op : Byte} : opcodeLength o op = none ↔ opcodeRow o op = none := by
  simp [opcodeLength]

/-- In a map whose keys are distinct, a row is found under its key. -/
theorem lookup_of_mem {l : List (Byte × Shape)} (h : (l.map (·.1)).Nodup) {op : Byte} {sh : Shape}
    (hm : (op, sh) ∈ l) : l.lookup op = some sh := by
  induction l with
  | nil => cases hm
  | cons c rest ih =>
    obtain ⟨k, x⟩ := c
    have hk := List.nodup_cons.mp h
    rcases List.mem_cons.mp hm with he | hr
    · cases he
      simp [List.lookup]
    · have hne : op ≠ k := by
        rintro rfl
        exact hk.1 (List.mem_map_of_mem (f := (·.1)) hr)
      simp [List.lookup, show (op == k) = false by simpa using hne, ih hk.2 hr]

/-- A row that is found stands in the map. -/
theorem mem_of_lookup {l : List (Byte × Shape)} {op : Byte} {sh : Shape} (h : l.lookup op = some sh) :
    (op, sh) ∈ l := by
  induction l with
  | nil => cases h
  | cons c rest ih =>
    obtain ⟨k, x⟩ := c
    by_cases hk : op = k
    · subst hk
      simp only [List.lookup, beq_self_eq_true] at h
      cases h
      exact List.mem_cons_self
    · simp only [List.lookup, show (op == k) = false by simpa using hk] at h
      exact List.mem_cons_of_mem _ (ih h)

/-- Under distinct opcode bytes, each row of the map is the row of its byte (rule R89). -/
theorem opcodeRow_of_mem {o : Opcodes} (h : (opcodeBytes o).Nodup) {op : Byte} {sh : Shape}
    (hm : (op, sh) ∈ opcodeMap o) : opcodeRow o op = some sh := lookup_of_mem h hm

/-- A byte is unmapped exactly when it is none of the opcode bytes (rule R88). -/
theorem opcodeRow_none {o : Opcodes} {op : Byte} : opcodeRow o op = none ↔ op ∉ opcodeBytes o := by
  unfold opcodeRow opcodeBytes
  generalize opcodeMap o = l
  induction l with
  | nil => simp
  | cons c rest ih =>
    obtain ⟨k, x⟩ := c
    by_cases hk : op = k
    · subst hk
      simp [List.lookup]
    · simp [List.lookup, show (op == k) = false by simpa using hk, hk, ih]

theorem decode_unmapped {o : Opcodes} {op : Byte} (h : opcodeRow o op = none) (rest : List Byte) :
    decode o (op :: rest) = .error (.unmapped op) := by
  simp only [decode, h]

theorem decode_f1 {o : Opcodes} {op : Byte} {i : Instr} (h : opcodeRow o op = some (.f1 i)) (rest : List Byte) :
    decode o (op :: rest) = .ok (i, rest) := by
  simp only [decode, h]

theorem decode_f2 {o : Opcodes} {op : Byte} {mk : Byte → Instr} (h : opcodeRow o op = some (.f2 mk)) (b1 : Byte)
    (rest : List Byte) : decode o (op :: b1 :: rest) = .ok (mk b1, rest) := by
  simp only [decode, h]

theorem decode_f3 {o : Opcodes} {op : Byte} {mk : Word → Instr} (h : opcodeRow o op = some (.f3 mk)) (b1 b2 : Byte)
    (rest : List Byte) : decode o (op :: b1 :: b2 :: rest) = .ok (mk (joinBytes b2 b1), rest) := by
  simp only [decode, h]

/-- Given as many bytes as the opcode's row asks for, the decoder answers and uses them all. -/
theorem decode_of_length {o : Opcodes} {op : Byte} {rest : List Byte} {n : Nat} (h : opcodeLength o op = some n)
    (hl : rest.length = n - 1) : ∃ i, decode o (op :: rest) = .ok (i, []) := by
  obtain ⟨shape, hr, rfl⟩ : ∃ shape, opcodeRow o op = some shape ∧ shapeLength shape = n := by
    simpa [opcodeLength] using h
  cases shape with
  | f1 i =>
    obtain rfl : rest = [] := by simpa [shapeLength] using hl
    exact ⟨i, decode_f1 hr []⟩
  | f2 mk =>
    obtain ⟨b, rfl⟩ := List.length_eq_one_iff.mp hl
    exact ⟨mk b, decode_f2 hr b []⟩
  | f3 mk =>
    obtain ⟨b1, b2, rfl⟩ := List.length_eq_two.mp hl
    exact ⟨mk (joinBytes b2 b1), decode_f3 hr b1 b2 []⟩

theorem opcodeLength_pos {o : Opcodes} {op : Byte} {n : Nat} (h : opcodeLength o op = some n) : 1 ≤ n := by
  obtain ⟨shape, _, rfl⟩ : ∃ shape, opcodeRow o op = some shape ∧ shapeLength shape = n := by
    simpa [opcodeLength] using h
  cases shape <;> simp [shapeLength]

end Sys2Proof
end

