-- ==== Sys2Proof/Laws/Interrupts.lean ====
section
/-! SUPPORT. The interrupt controller: the pending predicate, the choice of a source, what service can do. -/

namespace Sys2Proof.Machine

theorem intf_requestInterrupt (s : State) (n : Interrupt) :
    (requestInterrupt s n).io.intf = s.io.intf ||| interruptMask n := rfl

theorem intf_clearInterrupt (s : State) (n : Interrupt) :
    (clearInterrupt s n).io.intf = s.io.intf &&& ~~~ interruptMask n := rfl

/-- The pending predicate holds exactly when some source is enabled and requested (rules R187, R190). -/
theorem anyInterruptPending_iff (s : State) :
    anyInterruptPending s = true ↔ ∃ n, isEnabled s n = true ∧ isRequested s n = true := by
  have key : ∀ x : Byte, (x &&& 0x1F#8 != 0x00#8) = true ↔
      ∃ n : Interrupt, x.getLsbD (interruptBit n) = true := by
    intro x
    constructor
    · intro h
      have h5 : x.getLsbD 0 = true ∨ x.getLsbD 1 = true ∨ x.getLsbD 2 = true ∨
          x.getLsbD 3 = true ∨ x.getLsbD 4 = true := by
        revert h; revert x; decide
      rcases h5 with h | h | h | h | h
      · exact ⟨.vBlank, h⟩
      · exact ⟨.lcdStatus, h⟩
      · exact ⟨.timer, h⟩
      · exact ⟨.serial, h⟩
      · exact ⟨.joypad, h⟩
    · rintro ⟨n, h⟩
      revert h
      cases n <;> revert x <;> decide
  unfold anyInterruptPending isEnabled isRequested
  rw [key]
  simp

/-- A source is found exactly when the pending predicate holds. -/
theorem firstPending_isSome (s : State) : (firstPending s).isSome = anyInterruptPending s := by
  rw [Bool.eq_iff_iff, anyInterruptPending_iff]
  unfold firstPending
  rw [List.find?_isSome]
  constructor
  · rintro ⟨n, _, h⟩
    exact ⟨n, by simpa using h⟩
  · rintro ⟨n, h⟩
    exact ⟨n, by cases n <;> decide, by simpa using h⟩

@[simp] theorem clearInterrupt_params (s : State) (n : Interrupt) :
    (clearInterrupt s n).params = s.params := rfl
@[simp] theorem clearInterrupt_regs (s : State) (n : Interrupt) : (clearInterrupt s n).regs = s.regs := rfl
@[simp] theorem memWriteWord_regs (s : State) (a v : Word) : (memWriteWord s a v).regs = s.regs := by
  simp [memWriteWord]
@[simp] theorem memWriteWord_params (s : State) (a v : Word) : (memWriteWord s a v).params = s.params := by
  simp [memWriteWord]
@[simp] theorem memWriteWord_ime (s : State) (a v : Word) : (memWriteWord s a v).ime = s.ime := by
  simp [memWriteWord]
@[simp] theorem memWriteWord_latch (s : State) (a v : Word) : (memWriteWord s a v).latch = s.latch := by
  simp [memWriteWord]
@[simp] theorem memWriteWord_cart (s : State) (a v : Word) : (memWriteWord s a v).cart = s.cart := by
  simp [memWriteWord]
@[simp] theorem memWriteWord_boot (s : State) (a v : Word) : (memWriteWord s a v).boot = s.boot := by
  simp [memWriteWord]
@[simp] theorem memWriteWord_oracle (s : State) (a v : Word) : (memWriteWord s a v).oracle = s.oracle := by
  simp [memWriteWord]

/-- The registers after an interrupt is taken: SP and PC, no other (rule R192). -/
theorem takeInterrupt_regs (s : State) (n : Interrupt) :
    (takeInterrupt s n).regs = { s.regs with sp := s.regs.sp - 2#16, pc := interruptVector s.params.vector n } := by
  simp [takeInterrupt, State.get16, Regs.get16, Regs.set16]

@[simp] theorem takeInterrupt_params (s : State) (n : Interrupt) :
    (takeInterrupt s n).params = s.params := by
  simp [takeInterrupt]
@[simp] theorem takeInterrupt_ime (s : State) (n : Interrupt) : (takeInterrupt s n).ime = false := by
  simp [takeInterrupt]
@[simp] theorem takeInterrupt_latch (s : State) (n : Interrupt) :
    (takeInterrupt s n).latch = s.latch := by
  simp [takeInterrupt, clearInterrupt]
@[simp] theorem takeInterrupt_cart (s : State) (n : Interrupt) : (takeInterrupt s n).cart = s.cart := by
  simp [takeInterrupt, clearInterrupt]
@[simp] theorem takeInterrupt_boot (s : State) (n : Interrupt) : (takeInterrupt s n).boot = s.boot := by
  simp [takeInterrupt, clearInterrupt]

end Sys2Proof.Machine
end

