-- ==== Sys2Proof/Laws/Step.lean ====
section
/-! SUPPORT. What a read, a fetch, an instruction and a step can do: one lemma each, said once. -/

namespace Sys2Proof.Machine

/-! CPU reads use up free values and change nothing else (rule R43). -/

/-- A CPU read changes the count of free bytes alone, and only in the prohibited range (rule R48). -/
theorem afterRead_eq (s : State) (a : Word) :
    afterRead s a = s.setOracle (s.oracle + if region a = .prohibited then 1 else 0) := by
  unfold afterRead
  cases region a <;> rfl

/-- The reads of a fetch change the count of free bytes alone. -/
theorem readBytes_state (s : State) (a : Word) (n : Nat) :
    (readBytes s a n).2 = s.setOracle (readBytes s a n).2.oracle := by
  induction n generalizing s a with
  | zero => rfl
  | succ n ih =>
    have h := ih (afterRead s a) (a + 1#16)
    show (readBytes (afterRead s a) (a + 1#16) n).2 =
      s.setOracle (readBytes (afterRead s a) (a + 1#16) n).2.oracle
    rw [h, afterRead_eq]
    rfl

theorem readBytes_length (s : State) (a : Word) (n : Nat) : (readBytes s a n).1.length = n := by
  induction n generalizing s a with
  | zero => rfl
  | succ n ih => simp [readBytes, ih]

/-- Away from the prohibited range a fetch changes nothing at all. -/
theorem readBytes_state_of_readable (s : State) (a : Word) (n : Nat)
    (h : ∀ k < n, region (a + BitVec.ofNat 16 k) ≠ .prohibited) : (readBytes s a n).2 = s := by
  induction n generalizing s a with
  | zero => rfl
  | succ n ih =>
    have h0 : region a ≠ .prohibited := by simpa using h 0 (by omega)
    have hs : afterRead s a = s := by rw [afterRead_eq, if_neg h0]; rfl
    show (readBytes (afterRead s a) (a + 1#16) n).2 = s
    rw [hs]
    apply ih
    intro k hk
    have := h (k + 1) (by omega)
    rwa [show a + 1#16 + BitVec.ofNat 16 k = a + BitVec.ofNat 16 (k + 1) by
      rw [BitVec.add_assoc]
      congr 1
      apply BitVec.eq_of_toNat_eq
      simp [Nat.add_comm]]

/-- The bytes a fetch reads away from the prohibited range, one by one. -/
theorem readBytes_bytes_of_readable (s : State) (a : Word) (n : Nat)
    (h : ∀ k < n, region (a + BitVec.ofNat 16 k) ≠ .prohibited) :
    (readBytes s a n).1 = (List.range n).map (fun k => readByte s (a + BitVec.ofNat 16 k)) := by
  induction n generalizing s a with
  | zero => rfl
  | succ n ih =>
    have h0 : region a ≠ .prohibited := by simpa using h 0 (by omega)
    have hs : afterRead s a = s := by rw [afterRead_eq, if_neg h0]; rfl
    have hadd : ∀ k, a + 1#16 + BitVec.ofNat 16 k = a + BitVec.ofNat 16 (k + 1) := by
      intro k
      rw [BitVec.add_assoc]
      congr 1
      apply BitVec.eq_of_toNat_eq
      simp [Nat.add_comm]
    show readByte s a :: (readBytes (afterRead s a) (a + 1#16) n).1 = _
    rw [hs, ih _ _ (fun k hk => by rw [hadd]; exact h (k + 1) (by omega)), List.range_succ_eq_map]
    simp [hadd, Function.comp_def]

/-! The fetch. -/

/-- What a fetch finds: the opcode is unmapped and only it is read, or its row's bytes decode. -/
theorem fetch_cases (s : State) (a : Word) :
    (opcodeLength s.params.opcodes (readByte s a) = none ∧
      fetch s a = .unmapped (readByte s a) a (afterRead s a)) ∨
    (∃ n i, opcodeLength s.params.opcodes (readByte s a) = some (n + 1) ∧
      decode s.params.opcodes (readBytes s a (n + 1)).1 = .ok (i, []) ∧
      fetch s a = .instr i (readBytes s a (n + 1)).2) := by
  cases h : opcodeLength s.params.opcodes (readByte s a) with
  | none => exact .inl ⟨rfl, by simp only [fetch, h]⟩
  | some m =>
    right
    obtain ⟨n, rfl⟩ : ∃ n, m = n + 1 := ⟨m - 1, by have := opcodeLength_pos h; omega⟩
    obtain ⟨i, hi⟩ := decode_of_length h (readBytes_length (afterRead s a) (a + 1#16) (n + 1 - 1))
    refine ⟨n, i, rfl, hi, ?_⟩
    simp only [fetch, h, hi]
    rfl

/-! Instructions. -/

/-- What a store does outside the Register File is its one byte write (rule R120). -/
theorem storeThrough_effect (p : Pointer) (r : Reg8) (s : State) :
    ∃ g, storeThrough p r s =
      .next { memWrite s (pointerAddress s p) (s.get8 r) with regs := g } := by
  cases p <;> exact ⟨_, rfl⟩

/-- Everything an instruction can do outside the Register File: nothing, one byte write, or one read of
memory; it never stops (rules R63, R185). -/
theorem exec_cases (i : Instr) (s : State) :
    ∃ g w, exec i s = .next { w with regs := g } ∧
      ((w = s ∧ i.kind ≠ .store) ∨ (i.kind = .store ∧ ∃ a v, w = memWrite s a v) ∨
        (i = .xorHL ∧ w = afterRead s (s.get16 .hl))) := by
  have hstore : ∀ p r, i.kind = .store → exec i s = storeThrough p r s →
      ∃ g w, exec i s = .next { w with regs := g } ∧
        ((w = s ∧ i.kind ≠ .store) ∨ (i.kind = .store ∧ ∃ a v, w = memWrite s a v) ∨
          (i = .xorHL ∧ w = afterRead s (s.get16 .hl))) := by
    intro p r hk he
    obtain ⟨g, hg⟩ := storeThrough_effect p r s
    exact ⟨g, _, he.trans hg, .inr (.inl ⟨hk, _, _, rfl⟩)⟩
  cases i
  case stBCA => exact hstore .bc .a rfl rfl
  case stDEA => exact hstore .de .a rfl rfl
  case stHLDecA => exact hstore .hlDec .a rfl rfl
  case stHLB => exact hstore .hl .b rfl rfl
  case stHLC => exact hstore .hl .c rfl rfl
  case stHLD => exact hstore .hl .d rfl rfl
  case stHLE => exact hstore .hl .e rfl rfl
  case stHLH => exact hstore .hl .h rfl rfl
  case stHLL => exact hstore .hl .l rfl rfl
  case stHLA => exact hstore .hl .a rfl rfl
  case xorHL => exact ⟨_, afterRead s (s.get16 .hl), rfl, .inr (.inr ⟨rfl, rfl⟩)⟩
  case jrNZ e8 =>
    by_cases hz : condHolds s .nz = true
    · refine ⟨((s.advance 2).setPc ((s.advance 2).regs.pc + sext16 e8)).regs, s, ?_,
        .inl ⟨rfl, fun h => OpKind.noConfusion h⟩⟩
      simp only [exec, execJrNZ, jumpRelative, if_pos hz]
      rfl
    · refine ⟨(s.advance 2).regs, s, ?_, .inl ⟨rfl, fun h => OpKind.noConfusion h⟩⟩
      simp only [exec, execJrNZ, jumpRelative, if_neg hz]
      rfl
  all_goals exact ⟨_, s, rfl, .inl ⟨rfl, fun h => OpKind.noConfusion h⟩⟩

/-! The step. -/

/-- Everything a step can do (rule R224). -/
theorem step_cases (s : State) :
    (∃ f, s.latch = some f ∧ step s = .fault (.halted f)) ∨
    (s.latch = none ∧ interruptDue s = true ∧ step s = .next (serviceInterrupt s.clearEvents)) ∨
    (s.latch = none ∧ interruptDue s = false ∧ opcodeLength s.params.opcodes (readByte s.clearEvents s.regs.pc) = none ∧
      step s = raiseDecodeFault (readByte s.clearEvents s.regs.pc) s.regs.pc
        (afterRead s.clearEvents s.regs.pc)) ∨
    (s.latch = none ∧ interruptDue s = false ∧ ∃ n i,
      opcodeLength s.params.opcodes (readByte s.clearEvents s.regs.pc) = some (n + 1) ∧
      decode s.params.opcodes (readBytes s.clearEvents s.regs.pc (n + 1)).1 = .ok (i, []) ∧
      step s = exec i (readBytes s.clearEvents s.regs.pc (n + 1)).2) := by
  unfold step
  cases hl : s.latch with
  | some f => exact .inl ⟨f, rfl, rfl⟩
  | none =>
    cases hd : interruptDue s with
    | true => exact .inr (.inl ⟨rfl, rfl, by simp⟩)
    | false =>
      rcases fetch_cases s.clearEvents s.regs.pc with ⟨h, hf⟩ | ⟨n, i, h, hd', hf⟩
      · refine .inr (.inr (.inl ⟨rfl, rfl, h, ?_⟩))
        simp [stepInstr, hf]
      · refine .inr (.inr (.inr ⟨rfl, rfl, n, i, h, hd', ?_⟩))
        simp [stepInstr, hf]

end Sys2Proof.Machine
end

