-- ==== Sys2Proof/Laws/Inv.lean ====
section
/-! SUPPORT. The invariant of `Safety.lean` under the shared operations: what does not touch a store, and a
byte write. -/

namespace Sys2Proof.Machine

/-- The invariant depends on the byte stores, BANK, the cartridge and LY alone. -/
theorem Inv.of_same_stores {s t : State} (h : Inv s) (hparams : t.params = s.params) (hram : t.ram = s.ram)
    (haudio : t.io.audio = s.io.audio) (hboot : t.boot = s.boot) (hcart : t.cart = s.cart)
    (hbank : t.bank = s.bank) (hly : t.io.ly.toNat < s.params.lyPeriod) : Inv t where
  params := by rw [hparams]; exact h.params
  ramForm := by rw [hram]; exact h.ramForm
  ramKeys := by rw [hram]; exact h.ramKeys
  audioForm := by rw [haudio]; exact h.audioForm
  audioKeys := by rw [haudio, hparams]; exact h.audioKeys
  bootForm := by rw [hboot]; exact h.bootForm
  bootKeys := by rw [hboot]; exact h.bootKeys
  imageForm := by rw [hcart]; exact h.imageForm
  imageKeys := by rw [hcart]; exact h.imageKeys
  imageSize := by rw [hcart]; exact h.imageSize
  bank := by
    have hb := h.bank
    unfold bankLegal bankCount at *
    rw [hcart, hbank]
    exact hb
  scanline := by rw [hparams]; exact hly

/-- A bank-select write under LinearBanked leaves a legal bank (rules R20, R52). -/
theorem bankLegal_of_select {s : State} (v : Byte) (hc : s.cart.controller = .linearBanked) :
    bankLegal (s.setBank (clampBank (bankCount s) v)) := by
  have hv := v.isLt
  refine ⟨?_, ?_, fun h => ?_⟩
  · simp only [State.setBank_bank, clampBank]
    repeat' split
    · decide
    · decide
    · have : bankCount s < 256 := by omega
      simp
      omega
    · next hne _ =>
        have : v.toNat ≠ 0 := fun h0 => hne (BitVec.eq_of_toNat_eq h0)
        omega
  · show (clampBank (bankCount s) v).toNat ≤ max (bankCount s) 1
    simp only [clampBank]
    repeat' split
    · simp
    · simp
    · have : bankCount s < 256 := by omega
      simp
      omega
    · omega
  · have hn : s.cart.controller = .noBanking := h
    rw [hc] at hn
    cases hn

/-- A byte write keeps the invariant (rules R49 to R57). -/
theorem Inv.memWrite {s : State} (h : Inv s) (a : Word) (v : Byte) :
    Inv (Sys2Proof.Machine.memWrite s a v) := by
  rcases memWrite_cases s a v with ⟨_, e⟩ | ⟨_, e⟩ | ⟨_, hc, e⟩ | ⟨hr, e⟩ | ⟨r, _, _, e⟩ |
    ⟨_, _, ha, e⟩ | ⟨_, e⟩ <;> rw [e]
  · exact h.of_same_stores rfl rfl rfl rfl rfl rfl h.scanline
  · exact h
  · exact
      { params := h.params, ramForm := h.ramForm, ramKeys := h.ramKeys, audioForm := h.audioForm, audioKeys := h.audioKeys,
        bootForm := h.bootForm, bootKeys := h.bootKeys, imageForm := h.imageForm,
        imageKeys := h.imageKeys, imageSize := h.imageSize, bank := bankLegal_of_select v hc,
        scanline := h.scanline }
  · refine
      { params := h.params, ramForm := Memory.write_wf _ _ h.ramForm, ramKeys := ?_, audioForm := h.audioForm,
        audioKeys := h.audioKeys, bootForm := h.bootForm, bootKeys := h.bootKeys,
        imageForm := h.imageForm, imageKeys := h.imageKeys, imageSize := h.imageSize,
        bank := h.bank, scanline := h.scanline }
    intro c hc
    rcases Memory.mem_write (d := none) hc with ⟨rfl, _⟩ | hc
    · rw [← isRamRegion_iff]
      exact hr
    · exact h.ramKeys c hc
  · refine h.of_same_stores rfl rfl (writeIoReg_audio _ _ _) rfl rfl rfl ?_
    have hly := writeIoReg_ly s.io r v
    simpa [hly] using h.scanline
  · refine
      { params := h.params, ramForm := h.ramForm, ramKeys := h.ramKeys, audioForm := Memory.write_wf _ _ h.audioForm,
        audioKeys := ?_, bootForm := h.bootForm, bootKeys := h.bootKeys, imageForm := h.imageForm,
        imageKeys := h.imageKeys, imageSize := h.imageSize, bank := h.bank, scanline := h.scanline }
    intro c hc
    rcases Memory.mem_write (d := some 0x00#8) hc with ⟨rfl, _⟩ | hc
    · exact ha
    · exact h.audioKeys c hc
  · exact h.of_same_stores rfl rfl rfl rfl rfl rfl h.scanline

end Sys2Proof.Machine
end

