-- ==== Sys2Proof/Laws/PerInstr.lean ====
section
/-! SUPPORT. Statements about every instruction as syntax, one lemma for each constructor. -/

namespace Sys2Proof.Laws.EncodedForm

/-- An instruction is well formed; whatever the opcode bytes are, its bytes are as many as its length; and where they
are distinct its opcode byte alone gives that length (rules R80, R84, R89, R90). -/
def Statement (i : Instr) : Prop :=
  i.wellFormed = true ∧ ∀ o : Opcodes, (encode o i).length = i.length ∧
    ((opcodeBytes o).Nodup → ∃ op rest, encode o i = op :: rest ∧ opcodeLength o op = some i.length)

/-- An instruction whose opcode byte stands in row `k` of the map, with its length. -/
theorem of_row {i : Instr} (k : Nat) {op : Opcodes → Byte} {rest : List Byte} {sh : Shape}
    (hw : i.wellFormed = true) (he : ∀ o, encode o i = op o :: rest)
    (hrow : ∀ o, (opcodeMap o)[k]? = some (op o, sh)) (hrest : (rest.length + 1) = i.length)
    (hlen : shapeLength sh = i.length) : Statement i := by
  refine ⟨hw, fun o => ⟨by rw [he o, List.length_cons, hrest], fun hd => ⟨op o, rest, he o, ?_⟩⟩⟩
  rw [opcodeLength, opcodeRow_of_mem hd (List.mem_of_getElem? (hrow o)), Option.map_some, hlen]

theorem nop : Statement .nop := of_row 0 rfl (fun _ => rfl) (fun _ => rfl) rfl rfl
theorem ldBCd16 (d16 : Word) : Statement (.ldBCd16 d16) := of_row 1 rfl (fun _ => rfl) (fun _ => rfl) rfl rfl
theorem ldDEd16 (d16 : Word) : Statement (.ldDEd16 d16) := of_row 7 rfl (fun _ => rfl) (fun _ => rfl) rfl rfl
theorem ldHLd16 (d16 : Word) : Statement (.ldHLd16 d16) := of_row 14 rfl (fun _ => rfl) (fun _ => rfl) rfl rfl
theorem ldSPd16 (d16 : Word) : Statement (.ldSPd16 d16) := of_row 19 rfl (fun _ => rfl) (fun _ => rfl) rfl rfl
theorem ldBd8 (d8 : Byte) : Statement (.ldBd8 d8) := of_row 4 rfl (fun _ => rfl) (fun _ => rfl) rfl rfl
theorem ldCd8 (d8 : Byte) : Statement (.ldCd8 d8) := of_row 6 rfl (fun _ => rfl) (fun _ => rfl) rfl rfl
theorem ldDd8 (d8 : Byte) : Statement (.ldDd8 d8) := of_row 10 rfl (fun _ => rfl) (fun _ => rfl) rfl rfl
theorem ldEd8 (d8 : Byte) : Statement (.ldEd8 d8) := of_row 12 rfl (fun _ => rfl) (fun _ => rfl) rfl rfl
theorem ldHd8 (d8 : Byte) : Statement (.ldHd8 d8) := of_row 16 rfl (fun _ => rfl) (fun _ => rfl) rfl rfl
theorem ldLd8 (d8 : Byte) : Statement (.ldLd8 d8) := of_row 18 rfl (fun _ => rfl) (fun _ => rfl) rfl rfl
theorem ldAd8 (d8 : Byte) : Statement (.ldAd8 d8) := of_row 22 rfl (fun _ => rfl) (fun _ => rfl) rfl rfl
theorem stBCA : Statement .stBCA := of_row 2 rfl (fun _ => rfl) (fun _ => rfl) rfl rfl
theorem stDEA : Statement .stDEA := of_row 8 rfl (fun _ => rfl) (fun _ => rfl) rfl rfl
theorem stHLDecA : Statement .stHLDecA := of_row 20 rfl (fun _ => rfl) (fun _ => rfl) rfl rfl
theorem stHLB : Statement .stHLB := of_row 23 rfl (fun _ => rfl) (fun _ => rfl) rfl rfl
theorem stHLC : Statement .stHLC := of_row 24 rfl (fun _ => rfl) (fun _ => rfl) rfl rfl
theorem stHLD : Statement .stHLD := of_row 25 rfl (fun _ => rfl) (fun _ => rfl) rfl rfl
theorem stHLE : Statement .stHLE := of_row 26 rfl (fun _ => rfl) (fun _ => rfl) rfl rfl
theorem stHLH : Statement .stHLH := of_row 27 rfl (fun _ => rfl) (fun _ => rfl) rfl rfl
theorem stHLL : Statement .stHLL := of_row 28 rfl (fun _ => rfl) (fun _ => rfl) rfl rfl
theorem stHLA : Statement .stHLA := of_row 29 rfl (fun _ => rfl) (fun _ => rfl) rfl rfl
theorem decB : Statement .decB := of_row 3 rfl (fun _ => rfl) (fun _ => rfl) rfl rfl
theorem decC : Statement .decC := of_row 5 rfl (fun _ => rfl) (fun _ => rfl) rfl rfl
theorem decD : Statement .decD := of_row 9 rfl (fun _ => rfl) (fun _ => rfl) rfl rfl
theorem decE : Statement .decE := of_row 11 rfl (fun _ => rfl) (fun _ => rfl) rfl rfl
theorem decH : Statement .decH := of_row 15 rfl (fun _ => rfl) (fun _ => rfl) rfl rfl
theorem decL : Statement .decL := of_row 17 rfl (fun _ => rfl) (fun _ => rfl) rfl rfl
theorem decA : Statement .decA := of_row 21 rfl (fun _ => rfl) (fun _ => rfl) rfl rfl
theorem xorB : Statement .xorB := of_row 30 rfl (fun _ => rfl) (fun _ => rfl) rfl rfl
theorem xorC : Statement .xorC := of_row 31 rfl (fun _ => rfl) (fun _ => rfl) rfl rfl
theorem xorD : Statement .xorD := of_row 32 rfl (fun _ => rfl) (fun _ => rfl) rfl rfl
theorem xorE : Statement .xorE := of_row 33 rfl (fun _ => rfl) (fun _ => rfl) rfl rfl
theorem xorH : Statement .xorH := of_row 34 rfl (fun _ => rfl) (fun _ => rfl) rfl rfl
theorem xorL : Statement .xorL := of_row 35 rfl (fun _ => rfl) (fun _ => rfl) rfl rfl
theorem xorA : Statement .xorA := of_row 37 rfl (fun _ => rfl) (fun _ => rfl) rfl rfl
theorem xorHL : Statement .xorHL := of_row 36 rfl (fun _ => rfl) (fun _ => rfl) rfl rfl
theorem jp (a16 : Word) : Statement (.jp a16) := of_row 38 rfl (fun _ => rfl) (fun _ => rfl) rfl rfl
theorem jrNZ (e8 : Byte) : Statement (.jrNZ e8) := of_row 13 rfl (fun _ => rfl) (fun _ => rfl) rfl rfl

end Sys2Proof.Laws.EncodedForm
end

