-- ==== Sys2Proof/Tests/Slice0.lean ====
section
/-! SUPPORT. The model's own tests. Expected results come from spec/95_test_vectors.md (the section is named
beside each group) or from the rule named; the `witness` theorems show states that meet the hypotheses of the
statements. -/

namespace Sys2Proof.Tests

open Sys2Proof Sys2Proof.Machine

/-! Helpers. -/

/-- The launch state L(pc) of 95_test_vectors.md: the overlay off, the code in the image at PC, four banks. -/
def launched (pc : Word) (code : List Byte) (g : Regs) : State :=
  (State.resetWith defaultParams
    { image := Memory.ofBytes pc.toNat code, length := 0x10000, controller := .linearBanked } []).launch pc
    |> fun s => { s with regs := { g with pc := pc } }

/-- The Register File after a step, if it goes on. -/
def nextRegs : Outcome → Option Regs
  | .next t => some t.regs
  | .fault _ => none
  | .refused _ => none

/-- One field or byte of the state after a step, if it goes on. -/
def nextView {α : Type} (f : State → α) : Outcome → Option α
  | .next t => some (f t)
  | .fault _ => none
  | .refused _ => none

/-- The zeroed Register File. -/
def z : Regs := resetRegs

/-- The flags of an upper nibble of F. -/
def fl (v : Byte) : Flags := flagsOfByte v

/-! WellFormed: an ill-formed form for each check (rules R82, R84, R90). -/

theorem test_wf_load_into_f : Form.wellFormed ⟨.load8, [.reg .f, .imm8 0x00#8], 2⟩ = false := by decide
theorem test_wf_load_into_af : Form.wellFormed ⟨.load16, [.pair .af, .imm16 0x0000#16], 3⟩ = false := by decide
theorem test_wf_store_b_through_bc : Form.wellFormed ⟨.store, [.pointer .bc, .reg .b], 1⟩ = false := by decide
theorem test_wf_store_b_through_de : Form.wellFormed ⟨.store, [.pointer .de, .reg .b], 1⟩ = false := by decide
theorem test_wf_store_b_decrementing : Form.wellFormed ⟨.store, [.pointer .hlDec, .reg .b], 1⟩ = false := by decide
theorem test_wf_store_f : Form.wellFormed ⟨.store, [.pointer .hl, .reg .f], 1⟩ = false := by decide
theorem test_wf_dec_f : Form.wellFormed ⟨.dec8, [.reg .f], 1⟩ = false := by decide
theorem test_wf_xor_f : Form.wellFormed ⟨.xor, [.reg .a, .reg .f], 1⟩ = false := by decide
theorem test_wf_xor_into_b : Form.wellFormed ⟨.xor, [.reg .b, .reg .a], 1⟩ = false := by decide
theorem test_wf_xor_through_bc : Form.wellFormed ⟨.xor, [.reg .a, .pointer .bc], 1⟩ = false := by decide
theorem test_wf_xor_memory_into_b : Form.wellFormed ⟨.xor, [.reg .b, .pointer .hl], 1⟩ = false := by decide
theorem test_wf_jump_without_target : Form.wellFormed ⟨.jump, [], 3⟩ = false := by decide
theorem test_wf_relative_jump_without_condition :
    Form.wellFormed ⟨.jumpRelative, [.disp8 0x00#8], 2⟩ = false := by decide
theorem test_wf_noop_with_operand : Form.wellFormed ⟨.noop, [.reg .a], 1⟩ = false := by decide
theorem test_wf_length : Form.wellFormed ⟨.noop, [], 2⟩ = false := by decide

/-! Decoding: every opcode byte written out in binary from the table of rule R86. -/

theorem test_decode_loads16 :
    decode defaultOpcodes [0b00000001#8, 0x34#8, 0x12#8] = .ok (.ldBCd16 0x1234#16, []) ∧
    decode defaultOpcodes [0b00010001#8, 0x34#8, 0x12#8] = .ok (.ldDEd16 0x1234#16, []) ∧
    decode defaultOpcodes [0b00100001#8, 0x34#8, 0x12#8] = .ok (.ldHLd16 0x1234#16, []) ∧
    decode defaultOpcodes [0b00110001#8, 0x34#8, 0x12#8] = .ok (.ldSPd16 0x1234#16, []) := ⟨rfl, rfl, rfl, rfl⟩

theorem test_decode_loads8 :
    decode defaultOpcodes [0b00000110#8, 0xA5#8] = .ok (.ldBd8 0xA5#8, []) ∧
    decode defaultOpcodes [0b00001110#8, 0xA5#8] = .ok (.ldCd8 0xA5#8, []) ∧
    decode defaultOpcodes [0b00010110#8, 0xA5#8] = .ok (.ldDd8 0xA5#8, []) ∧
    decode defaultOpcodes [0b00011110#8, 0xA5#8] = .ok (.ldEd8 0xA5#8, []) ∧
    decode defaultOpcodes [0b00100110#8, 0xA5#8] = .ok (.ldHd8 0xA5#8, []) ∧
    decode defaultOpcodes [0b00101110#8, 0xA5#8] = .ok (.ldLd8 0xA5#8, []) ∧
    decode defaultOpcodes [0b00111110#8, 0xA5#8] = .ok (.ldAd8 0xA5#8, []) := ⟨rfl, rfl, rfl, rfl, rfl, rfl, rfl⟩

theorem test_decode_stores :
    decode defaultOpcodes [0b00000010#8] = .ok (.stBCA, []) ∧ decode defaultOpcodes [0b00010010#8] = .ok (.stDEA, []) ∧
    decode defaultOpcodes [0b00110010#8] = .ok (.stHLDecA, []) ∧ decode defaultOpcodes [0b01110000#8] = .ok (.stHLB, []) ∧
    decode defaultOpcodes [0b01110001#8] = .ok (.stHLC, []) ∧ decode defaultOpcodes [0b01110010#8] = .ok (.stHLD, []) ∧
    decode defaultOpcodes [0b01110011#8] = .ok (.stHLE, []) ∧ decode defaultOpcodes [0b01110100#8] = .ok (.stHLH, []) ∧
    decode defaultOpcodes [0b01110101#8] = .ok (.stHLL, []) ∧ decode defaultOpcodes [0b01110111#8] = .ok (.stHLA, []) :=
  ⟨rfl, rfl, rfl, rfl, rfl, rfl, rfl, rfl, rfl, rfl⟩

theorem test_decode_decrements :
    decode defaultOpcodes [0b00000101#8] = .ok (.decB, []) ∧ decode defaultOpcodes [0b00001101#8] = .ok (.decC, []) ∧
    decode defaultOpcodes [0b00010101#8] = .ok (.decD, []) ∧ decode defaultOpcodes [0b00011101#8] = .ok (.decE, []) ∧
    decode defaultOpcodes [0b00100101#8] = .ok (.decH, []) ∧ decode defaultOpcodes [0b00101101#8] = .ok (.decL, []) ∧
    decode defaultOpcodes [0b00111101#8] = .ok (.decA, []) := ⟨rfl, rfl, rfl, rfl, rfl, rfl, rfl⟩

theorem test_decode_xors :
    decode defaultOpcodes [0b10101000#8] = .ok (.xorB, []) ∧ decode defaultOpcodes [0b10101001#8] = .ok (.xorC, []) ∧
    decode defaultOpcodes [0b10101010#8] = .ok (.xorD, []) ∧ decode defaultOpcodes [0b10101011#8] = .ok (.xorE, []) ∧
    decode defaultOpcodes [0b10101100#8] = .ok (.xorH, []) ∧ decode defaultOpcodes [0b10101101#8] = .ok (.xorL, []) ∧
    decode defaultOpcodes [0b10101110#8] = .ok (.xorHL, []) ∧ decode defaultOpcodes [0b10101111#8] = .ok (.xorA, []) :=
  ⟨rfl, rfl, rfl, rfl, rfl, rfl, rfl, rfl⟩

theorem test_decode_control :
    decode defaultOpcodes [0b11000011#8, 0x00#8, 0x01#8] = .ok (.jp 0x0100#16, []) ∧
    decode defaultOpcodes [0b00100000#8, 0xFC#8] = .ok (.jrNZ 0xFC#8, []) ∧
    decode defaultOpcodes [0b00000000#8] = .ok (.nop, []) := ⟨rfl, rfl, rfl⟩

/-- Section 2.8: bytes a reader of the full instruction set might expect to work. -/
theorem test_decode_unmapped :
    [0xD3#8, 0xCB#8, 0x76#8, 0x36#8, 0x22#8, 0x18#8, 0x28#8, 0x30#8, 0x38#8, 0x35#8, 0xFF#8].all
      (fun op => decode defaultOpcodes [op] == .error (.unmapped op)) = true := by decide

/-- A word of the opcode table, the first byte its least significant one, and operands of zeros. -/
theorem test_table_word :
    decodeTableWord 24 0x010021 = some (.ldHLd16 0x0100#16) ∧ decodeTableWord 8 0xC3 = some (.jp 0x0000#16) ∧
    decodeTableWord 8 0xD3 = none := by decide

/-- The step runs a placed word as the first instruction after reset. -/
theorem test_withFetchWord_after_reset :
    nextRegs (step (State.reset.withFetchWord 24 0x123401)) =
      some { z with b := 0x12#8, c := 0x34#8, pc := 0x0003#16 } := by decide

/-- Section 2.8: the texts of the representatives of each format. -/
theorem test_asmText :
    asmText (.ldAd8 0x05#8) = "LD A,$05" ∧ asmText (.ldHLd16 0xC002#16) = "LD HL,$C002" ∧
    asmText (.jp 0x0100#16) = "JP $0100" ∧ asmText .nop = "NOP" ∧ asmText .stHLDecA = "LD (HL-),A" := by
  decide

/-! One step of each instruction: sections 2.1 to 2.7. -/

theorem test_step_ldBCd16 :
    nextRegs (step (launched 0x0100#16 [0x01#8, 0x34#8, 0x12#8] z)) =
      some { z with b := 0x12#8, c := 0x34#8, pc := 0x0103#16 } := by decide

theorem test_step_ldDEd16 :
    nextRegs (step (launched 0x0100#16 [0x11#8, 0xFF#8, 0x00#8] { z with d := 0xAA#8, e := 0xBB#8 })) =
      some { z with d := 0x00#8, e := 0xFF#8, pc := 0x0103#16 } := by decide

theorem test_step_ldHLd16 :
    nextRegs (step (launched 0x0100#16 [0x21#8, 0x00#8, 0xC0#8] { z with f := fl 0xF0#8 })) =
      some { z with f := fl 0xF0#8, h := 0xC0#8, l := 0x00#8, pc := 0x0103#16 } := by decide

theorem test_step_ldSPd16 :
    nextRegs (step (launched 0x0100#16 [0x31#8, 0xFE#8, 0xFF#8] z)) =
      some { z with sp := 0xFFFE#16, pc := 0x0103#16 } := by decide

theorem test_step_ldBd8 :
    nextRegs (step (launched 0x0100#16 [0x06#8, 0x03#8] z)) =
      some { z with b := 0x03#8, pc := 0x0102#16 } := by decide

theorem test_step_ldCd8 :
    nextRegs (step (launched 0x0100#16 [0x0E#8, 0x11#8] { z with b := 0x22#8 })) =
      some { z with b := 0x22#8, c := 0x11#8, pc := 0x0102#16 } := by decide

theorem test_step_ldDd8 :
    nextRegs (step (launched 0x0100#16 [0x16#8, 0xFF#8] z)) =
      some { z with d := 0xFF#8, pc := 0x0102#16 } := by decide

theorem test_step_ldEd8 :
    nextRegs (step (launched 0x0100#16 [0x1E#8, 0x80#8] z)) =
      some { z with e := 0x80#8, pc := 0x0102#16 } := by decide

theorem test_step_ldHd8 :
    nextRegs (step (launched 0x0100#16 [0x26#8, 0xC0#8] { z with l := 0x10#8 })) =
      some { z with l := 0x10#8, h := 0xC0#8, pc := 0x0102#16 } := by decide

theorem test_step_ldLd8 :
    nextRegs (step (launched 0x0100#16 [0x2E#8, 0x7F#8] { z with h := 0xC0#8 })) =
      some { z with h := 0xC0#8, l := 0x7F#8, pc := 0x0102#16 } := by decide

theorem test_step_ldAd8 :
    nextRegs (step (launched 0x0100#16 [0x3E#8, 0x00#8] { z with a := 0x55#8, f := fl 0x10#8 })) =
      some { z with a := 0x00#8, f := fl 0x10#8, pc := 0x0102#16 } := by decide

/-- The operand bytes are fetched at wrapped addresses (decision D21); the opcode byte is the value of IE. -/
theorem test_step_fetch_wraps :
    nextRegs (step { launched 0x0000#16 [0x34#8, 0x12#8] z with
      regs := { z with pc := 0xFFFF#16 },
      io := { resetIo with ie := 0x21#8, bootOff := 0x01#8 } }) =
      some { z with h := 0x12#8, l := 0x34#8, pc := 0x0002#16 } := by decide

theorem test_step_stBCA :
    nextView (fun t => (t.regs, readByte t 0xC010#16, t.events)) (step (launched 0x0100#16 [0x02#8] { z with b := 0xC0#8, c := 0x10#8, a := 0x5A#8 })) =
      some ({ z with b := 0xC0#8, c := 0x10#8, a := 0x5A#8, pc := 0x0101#16 }, 0x5A#8, []) := by decide

theorem test_step_stDEA :
    nextView (fun t => (t.regs, readByte t 0x8000#16, t.events)) (step (launched 0x0100#16 [0x12#8] { z with d := 0x80#8, e := 0x00#8, a := 0xFF#8, f := fl 0xF0#8 })) =
      some ({ z with d := 0x80#8, e := 0x00#8, a := 0xFF#8, f := fl 0xF0#8, pc := 0x0101#16 }, 0xFF#8, []) := by decide

theorem test_step_stHLDecA :
    nextView (fun t => (t.regs, readByte t 0xC100#16, t.events)) (step (launched 0x0100#16 [0x32#8] { z with h := 0xC1#8, l := 0x00#8, a := 0x77#8 })) =
      some ({ z with h := 0xC0#8, l := 0xFF#8, a := 0x77#8, pc := 0x0101#16 }, 0x77#8, []) := by decide

theorem test_step_stHLDecA_unbacked :
    nextView (fun t => (t.regs, t.ram, t.events)) (step (launched 0x0100#16 [0x32#8] { z with h := 0xE0#8, l := 0x00#8, a := 0x77#8 })) =
      some ({ z with h := 0xDF#8, l := 0xFF#8, a := 0x77#8, pc := 0x0101#16 }, [], [⟨0xE000#16⟩]) := by decide

theorem test_step_stHLB :
    nextView (fun t => (t.regs, readByte t 0xC000#16, t.events)) (step (launched 0x0100#16 [0x70#8] { z with h := 0xC0#8, l := 0x00#8, b := 0x12#8 })) =
      some ({ z with h := 0xC0#8, l := 0x00#8, b := 0x12#8, pc := 0x0101#16 }, 0x12#8, []) := by decide

theorem test_step_stHLC :
    nextView (fun t => (t.regs, readByte t 0xFF80#16, t.events)) (step (launched 0x0100#16 [0x71#8] { z with h := 0xFF#8, l := 0x80#8, c := 0x34#8 })) =
      some ({ z with h := 0xFF#8, l := 0x80#8, c := 0x34#8, pc := 0x0101#16 }, 0x34#8, []) := by decide

theorem test_step_stHLD :
    nextView (fun t => (t.regs, readByte t 0xFE00#16, t.events)) (step (launched 0x0100#16 [0x72#8] { z with h := 0xFE#8, l := 0x00#8, d := 0x56#8 })) =
      some ({ z with h := 0xFE#8, l := 0x00#8, d := 0x56#8, pc := 0x0101#16 }, 0x56#8, []) := by decide

theorem test_step_stHLE_unbacked :
    nextView (fun t => (t.regs, t.ram, t.events)) (step (launched 0x0100#16 [0x73#8] { z with h := 0xFD#8, l := 0xFF#8, e := 0x78#8 })) =
      some ({ z with h := 0xFD#8, l := 0xFF#8, e := 0x78#8, pc := 0x0101#16 }, [], [⟨0xFDFF#16⟩]) := by decide

theorem test_step_stHLE :
    nextView (fun t => (t.regs, readByte t 0xC001#16, t.events)) (step (launched 0x0100#16 [0x73#8] { z with h := 0xC0#8, l := 0x01#8, e := 0x78#8 })) =
      some ({ z with h := 0xC0#8, l := 0x01#8, e := 0x78#8, pc := 0x0101#16 }, 0x78#8, []) := by decide

theorem test_step_stHLH :
    nextView (fun t => (t.regs, readByte t 0xC123#16, t.events)) (step (launched 0x0100#16 [0x74#8] { z with h := 0xC1#8, l := 0x23#8 })) =
      some ({ z with h := 0xC1#8, l := 0x23#8, pc := 0x0101#16 }, 0xC1#8, []) := by decide

theorem test_step_stHLL :
    nextView (fun t => (t.regs, readByte t 0xC123#16, t.events)) (step (launched 0x0100#16 [0x75#8] { z with h := 0xC1#8, l := 0x23#8 })) =
      some ({ z with h := 0xC1#8, l := 0x23#8, pc := 0x0101#16 }, 0x23#8, []) := by decide

theorem test_step_stHLA :
    nextView (fun t => (t.regs, readByte t 0xFFFF#16, t.events)) (step (launched 0x0100#16 [0x77#8] { z with h := 0xFF#8, l := 0xFF#8, a := 0x1F#8 })) =
      some ({ z with h := 0xFF#8, l := 0xFF#8, a := 0x1F#8, pc := 0x0101#16 }, 0x1F#8, []) := by decide

theorem test_step_decB :
    nextRegs (step (launched 0x0100#16 [0x05#8] { z with b := 0x10#8, f := fl 0x10#8 })) =
      some { z with b := 0x0F#8, f := fl 0x70#8, pc := 0x0101#16 } := by decide

theorem test_step_decB_to_zero :
    nextRegs (step (launched 0x0100#16 [0x05#8] { z with b := 0x01#8 })) =
      some { z with b := 0x00#8, f := fl 0xC0#8, pc := 0x0101#16 } := by decide

theorem test_step_decC :
    nextRegs (step (launched 0x0100#16 [0x0D#8] { z with c := 0x00#8, b := 0x12#8, f := fl 0x10#8 })) =
      some { z with c := 0xFF#8, b := 0x12#8, f := fl 0x70#8, pc := 0x0101#16 } := by decide

theorem test_step_decD :
    nextRegs (step (launched 0x0100#16 [0x15#8] { z with d := 0x01#8 })) =
      some { z with d := 0x00#8, f := fl 0xC0#8, pc := 0x0101#16 } := by decide

theorem test_step_decE :
    nextRegs (step (launched 0x0100#16 [0x1D#8] { z with e := 0x10#8, f := fl 0x80#8 })) =
      some { z with e := 0x0F#8, f := fl 0x60#8, pc := 0x0101#16 } := by decide

theorem test_step_decH :
    nextRegs (step (launched 0x0100#16 [0x25#8] { z with h := 0x80#8 })) =
      some { z with h := 0x7F#8, f := fl 0x60#8, pc := 0x0101#16 } := by decide

theorem test_step_decL :
    nextRegs (step (launched 0x0100#16 [0x2D#8] { z with h := 0xC0#8, l := 0x00#8 })) =
      some { z with h := 0xC0#8, l := 0xFF#8, f := fl 0x60#8, pc := 0x0101#16 } := by decide

theorem test_step_decA :
    nextRegs (step (launched 0x0100#16 [0x3D#8] { z with a := 0xFF#8, f := fl 0xF0#8 })) =
      some { z with a := 0xFE#8, f := fl 0x50#8, pc := 0x0101#16 } := by decide

theorem test_step_xorB :
    nextRegs (step (launched 0x0100#16 [0xA8#8] { z with a := 0xF0#8, b := 0x0F#8, f := fl 0x70#8 })) =
      some { z with a := 0xFF#8, b := 0x0F#8, f := fl 0x00#8, pc := 0x0101#16 } := by decide

theorem test_step_xorC :
    nextRegs (step (launched 0x0100#16 [0xA9#8] { z with a := 0x5A#8, c := 0x5A#8, f := fl 0x10#8 })) =
      some { z with a := 0x00#8, c := 0x5A#8, f := fl 0x80#8, pc := 0x0101#16 } := by decide

theorem test_step_xorD :
    nextRegs (step (launched 0x0100#16 [0xAA#8] { z with a := 0x3C#8, d := 0x00#8, f := fl 0xF0#8 })) =
      some { z with a := 0x3C#8, d := 0x00#8, f := fl 0x00#8, pc := 0x0101#16 } := by decide

theorem test_step_xorE :
    nextRegs (step (launched 0x0100#16 [0xAB#8] { z with a := 0x0F#8, e := 0xFF#8 })) =
      some { z with a := 0xF0#8, e := 0xFF#8, pc := 0x0101#16 } := by decide

theorem test_step_xorH :
    nextRegs (step (launched 0x0100#16 [0xAC#8] { z with a := 0x80#8, h := 0x80#8, f := fl 0x20#8 })) =
      some { z with a := 0x00#8, h := 0x80#8, f := fl 0x80#8, pc := 0x0101#16 } := by decide

theorem test_step_xorL :
    nextRegs (step (launched 0x0100#16 [0xAD#8] { z with a := 0x01#8, l := 0x03#8 })) =
      some { z with a := 0x02#8, l := 0x03#8, pc := 0x0101#16 } := by decide

theorem test_step_xorA :
    nextRegs (step (launched 0x0100#16 [0xAF#8] { z with a := 0xB7#8, f := fl 0x70#8 })) =
      some { z with a := 0x00#8, f := fl 0x80#8, pc := 0x0101#16 } := by decide

theorem test_step_xorHL_unbacked :
    nextRegs (step (launched 0x0100#16 [0xAE#8] { z with a := 0x00#8, h := 0xE0#8, l := 0x00#8 })) =
      some { z with a := 0xFF#8, h := 0xE0#8, l := 0x00#8, pc := 0x0101#16 } := by decide

theorem test_step_xorHL_own_opcode :
    nextRegs (step (launched 0x0100#16 [0xAE#8] { z with a := 0x00#8, h := 0x01#8, l := 0x00#8 })) =
      some { z with a := 0xAE#8, h := 0x01#8, l := 0x00#8, pc := 0x0101#16 } := by decide

theorem test_step_jp :
    nextRegs (step (launched 0x0100#16 [0xC3#8, 0x50#8, 0x01#8] { z with f := fl 0xF0#8, sp := 0x1234#16 })) =
      some { z with f := fl 0xF0#8, sp := 0x1234#16, pc := 0x0150#16 } := by decide

theorem test_step_jrNZ_taken :
    nextRegs (step (launched 0x0009#16 [0x20#8, 0xFC#8] z)) =
      some { z with pc := 0x0007#16 } := by decide

theorem test_step_jrNZ_not_taken :
    nextRegs (step (launched 0x0100#16 [0x20#8, 0xFE#8] { z with f := fl 0x80#8 })) =
      some { z with f := fl 0x80#8, pc := 0x0102#16 } := by decide

theorem test_step_jrNZ_wraps_below_zero :
    nextRegs (step (launched 0x0000#16 [0x20#8, 0x80#8] z)) =
      some { z with pc := 0xFF82#16 } := by decide

theorem test_step_nop :
    nextRegs (step (launched 0x0100#16 [0x00#8] { z with f := fl 0xF0#8 })) =
      some { z with f := fl 0xF0#8, pc := 0x0101#16 } := by decide

/-! Fatal faults (section 2.8, program P6). -/

theorem test_step_unmapped :
    (match step (launched 0x0152#16 [0xD3#8] { z with a := 0x01#8 }) with
     | .fault (.decodeFault op a t) =>
       op == 0xD3#8 && a == 0x0152#16 && t.regs == { z with a := 0x01#8, pc := 0x0152#16 }
         && t.latch == some (.decodeFault 0xD3#8 0x0152#16)
     | _ => false) = true := by decide

/-! Memory map, registers, banks (section 2.6). -/

/-- What a byte write answers, and one view of the state after it. -/
def written {α : Type} (f : State → α) (s : State) (a : Word) (v : Byte) : Option α :=
  match writeByte s a v with
  | .ok t => some (f t)
  | .error _ => none

/-- A state with some registers set. -/
def io0 : State :=
  { launched 0x0100#16 [] z with
    io := { resetIo with div := 0x37#8, stat := 0x02#8, ly := 0x42#8, bootOff := 0x01#8 } }

theorem test_write_div : written (·.io.div) io0 0xFF04#16 0x5A#8 = some 0x00#8 := by decide
theorem test_write_stat : written (·.io.stat) io0 0xFF41#16 0xFF#8 = some 0xFA#8 := by decide
theorem test_write_ly : written (·.io.ly) io0 0xFF44#16 0x99#8 = some 0x42#8 := by decide
theorem test_write_if : written (·.io.intf) io0 0xFF0F#16 0xE5#8 = some 0xE5#8 := by decide
theorem test_write_audio : written (fun t => readByte t 0xFF11#16) io0 0xFF11#16 0x80#8 = some 0x80#8 := by decide
theorem test_write_unmapped_register :
    written (fun t => readByte t 0xFF46#16) io0 0xFF46#16 0xC0#8 = some 0xFF#8 := by decide
theorem test_write_unbacked : written (·.ram) io0 0xFDFF#16 0x56#8 = none := by decide
theorem test_write_prohibited : written (·.ram) io0 0xFEA0#16 0x56#8 = some [] := by decide
theorem test_bank_clamp :
    [0x00#8, 0x01#8, 0x02#8, 0x03#8, 0x04#8, 0x05#8, 0xFF#8].map (fun v => written (·.bank) io0 0x4000#16 v) =
      [some 0x01#8, some 0x01#8, some 0x02#8, some 0x03#8, some 0x03#8, some 0x03#8, some 0x03#8] := by decide
theorem test_bank_write_in_fixed_range : written (·.bank) io0 0x3FFF#16 0x02#8 = some 0x01#8 := by decide

/-- Bank 2 of an image whose offset 0x8000 holds 0x22; the last bank of a 0x8001-byte image is padded. -/
def banked : State :=
  { io0 with bank := 0x02#8,
             cart := { image := [(0x8000, 0x22#8)], length := 0x8001, controller := .linearBanked } }

theorem test_read_bank : readByte banked 0x4000#16 = 0x22#8 ∧ readByte banked 0x4001#16 = 0x00#8 := by decide

/-- Property S5: the boot overlay. -/
theorem test_boot_overlay :
    (let s : State := { State.reset with boot := [(0x50, 0xAA#8)],
                                         cart := { image := [(0x50, 0x55#8), (0x100, 0x77#8)],
                                                   length := 0x4000, controller := .noBanking } }
     (readByte s 0x0050#16, readByte s 0x0100#16,
       written (fun t => readByte t 0x0050#16) s 0xFF50#16 0x01#8)) =
      (0xAA#8, 0x77#8, some 0x55#8) := by decide

/-- Property S6: word writes across regions, low byte first. -/
theorem test_word_into_ie :
    readWord (memWriteWord io0 0xFFFE#16 0xA55A#16) 0xFFFE#16 = 0xA55A#16 := by decide
theorem test_word_across_unbacked :
    (memWriteWord io0 0xDFFF#16 0xABCD#16).events = [⟨0xE000#16⟩] ∧
    readByte (memWriteWord io0 0xDFFF#16 0xABCD#16) 0xDFFF#16 = 0xCD#8 := by decide

/-! Interrupts and the environment (section 2.9). -/

/-- A state about to take an interrupt, or not. -/
def pendingState (ie intf : Byte) (sp pc : Word) : State :=
  { launched 0x0100#16 [0x00#8] z with
    regs := { z with sp := sp, pc := pc }, ime := true,
    io := { resetIo with ie := ie, intf := intf, bootOff := 0x01#8 } }

theorem test_interrupt_service :
    nextView (fun t => (t.regs, t.ime, t.io.intf, t.ram)) (step (pendingState 0x05#8 0x04#8 0xD000#16 0x1234#16)) =
      some ({ z with sp := 0xCFFE#16, pc := 0x0050#16 }, false, 0x00#8,
        [(0xCFFE, 0x34#8), (0xCFFF, 0x12#8)]) := by decide

theorem test_interrupt_priority :
    nextView (fun t => (t.regs, t.io.intf)) (step (pendingState 0x1F#8 0x12#8 0xFFFE#16 0x0200#16)) =
      some ({ z with sp := 0xFFFC#16, pc := 0x0048#16 }, 0x10#8) := by decide

theorem test_interrupt_push_unbacked :
    nextView (fun t => (t.regs.pc, t.events, t.ram)) (step (pendingState 0x01#8 0x01#8 0xE002#16 0x0100#16)) =
      some (0x0040#16, [⟨0xE000#16⟩, ⟨0xE001#16⟩], []) := by decide

theorem test_interrupt_not_enabled :
    nextRegs (step (pendingState 0x01#8 0x02#8 0x0000#16 0x0100#16)) = some { z with pc := 0x0101#16 } := by decide

theorem test_timer_overflow :
    (timerTick { io0 with io := { io0.io with tima := 0xFF#8, tma := 0x80#8 } }).io.tima = 0x80#8 ∧
    (timerTick { io0 with io := { io0.io with tima := 0xFF#8, tma := 0x80#8 } }).io.intf = 0x04#8 := by decide

theorem test_scanline_wraps :
    (scanlineAdvance { io0 with io := { io0.io with ly := 0x99#8 } }).io.ly = 0x00#8 ∧
    (scanlineAdvance { io0 with io := { io0.io with ly := 0x8F#8 } }).io.ly = 0x90#8 := by decide

theorem test_stat_low : (envSetStatLow { io0 with io := { io0.io with stat := 0xF8#8 } } 3#3).io.stat = 0xFB#8 := by
  decide

/-! Parameters (rule R4): a machine whose host chose other ones. -/

/-- Other values of every kind of parameter: `NOP` and `JP` have each other's byte, DIV lies at 0xFF46. -/
def otherParams : Params :=
  { defaultParams with
    unmappedReadValue := 0x3C#8, imeReset := true, lyPeriod := 10,
    addr := { defaultAddresses with div := 0xFF46#16 },
    vector := { defaultVectors with vBlank := 0x1234#16 },
    typeNoBanking := 0x05#8, typeLinear := 0x00#8,
    opcodes := { defaultOpcodes with nop := 0xC3#8, jp := 0x00#8 } }

/-- A machine with them after reset. -/
def other : State := State.resetWith otherParams anyCartridge [(0, 0xC3#8), (1, 0x00#8), (2, 0x34#8), (3, 0x12#8)]

theorem test_parameters_of_memory_and_environment :
    readByte other 0xE000#16 = 0x3C#8 ∧ readByte (incrementDivider other) 0xFF46#16 = 0x01#8 ∧
    readByte (incrementDivider other) 0xFF04#16 = 0x3C#8 ∧
    (scanlineAdvance { other with io := { other.io with ly := 0x09#8 } }).io.ly = 0x00#8 ∧
    other.ime = true ∧ (takeInterrupt other .vBlank).regs.pc = 0x1234#16 ∧
    controllerOfType otherParams 0x00#8 = some .linearBanked ∧ controllerOfType otherParams 0x01#8 = none := by decide

theorem test_parameters_of_the_decoder :
    nextRegs (step other) = some { z with pc := 0x0001#16 } ∧
    nextRegs (step { other with regs := { z with pc := 0x0001#16 } }) = some { z with pc := 0x1234#16 } := by decide

/-- The host's decoder names the byte and its address (rule R85), and an instruction where there is one. -/
theorem test_decodeAt :
    decodeAt (launched 0x0152#16 [0xD3#8, 0x05#8] z) 0x0152#16 = .error (.decodeFault 0xD3#8 0x0152#16) ∧
    decodeAt (launched 0x0152#16 [0xD3#8, 0x05#8] z) 0x0153#16 = .ok .decB := ⟨rfl, rfl⟩

/-! Witnesses: states and operands that meet the hypotheses of the statements, clause by clause. -/

/-- Every statement with legal parameters, or with distinct opcode bytes: the defaults meet them. -/
theorem witness_params_legal : ParamsLegal defaultParams where
  addrInWindow := by intro r; cases r <;> rfl
  addrDistinct := by intro r q h; cases r <;> cases q <;> first | rfl | exact absurd h (by decide)
  audioInWindow := by decide
  audioApart := by intro r; cases r <;> rfl
  periodPos := by decide
  titleInImage := by decide
  typeInImage := by decide
  typesDistinct := by decide
  opcodesDistinct := by decide

/-- ReadRegistersAndUnbackedAddresses, IoWindowWrites, WordAccessIsTwoByteAccesses: a state with legal parameters, the
defaults. -/
theorem witness_default_params : io0.params = defaultParams ∧ ParamsLegal io0.params := ⟨rfl, witness_params_legal⟩

/-- Opcode bytes other than the defaults can be distinct as well. -/
theorem witness_other_opcodes : (opcodeBytes otherParams.opcodes).Nodup := by decide

/-- A running state with an instruction's bytes in work RAM at PC: every `Fetches` hypothesis is met, for each
instruction with every operand. -/
def placed (i : Instr) : State :=
  { State.resetWith defaultParams anyCartridge [] with
    regs := { z with pc := 0xC000#16 }, ram := Memory.ofBytes 0xC000 (encode defaultOpcodes i) }

theorem witness_fetches (i : Instr) :
    (opcodeBytes (placed i).params.opcodes).Nodup ∧ (placed i).params.opcodes = defaultOpcodes ∧
      Fetches (placed i) (encode (placed i).params.opcodes i) (placed i) :=
  ⟨witness_params_legal.opcodesDistinct, rfl, by cases i <;> exact ⟨rfl, rfl, rfl⟩⟩

theorem witness_fetch_away_from_prohibited :
    ∀ k < (encode defaultOpcodes (.jp 0xC000#16)).length,
      region ((placed (.jp 0xC000#16)).regs.pc + BitVec.ofNat 16 k) ≠ .prohibited := by decide

/-- FetchReadsWhatReadByteReads, at the top of the address space: the two bytes wrap around. -/
theorem witness_fetch_reads :
    (let s : State := { launched 0x0000#16 [0x05#8] z with regs := { z with pc := 0xFFFF#16 } }
     s.latch = none ∧ interruptDue s = false ∧
      (∀ k < 2, region (s.regs.pc + BitVec.ofNat 16 k) ≠ .prohibited) ∧
      readByte s (s.regs.pc + BitVec.ofNat 16 0) = 0x00#8 ∧
      readByte s (s.regs.pc + BitVec.ofNat 16 1) = 0x05#8) := by decide

theorem witness_af_low_nibble : 0xF0#8 &&& 0x0F#8 = 0x00#8 := by decide

/-- ReadFixedBankUnderBootOverlay: both clauses on both sides of 0x00FF, with the overlay on and off. -/
theorem witness_boot_overlay :
    ((0x00FF#16).toNat ≤ 0x00FF ∧ State.reset.io.bootOff = 0x00#8) ∧
    ¬ ((0x0100#16).toNat ≤ 0x00FF ∧ State.reset.io.bootOff = 0x00#8) ∧
    ¬ ((0x0000#16).toNat ≤ 0x00FF ∧ io0.io.bootOff = 0x00#8) ∧ (0x3FFF#16).toNat ≤ 0x3FFF := by decide

/-- ReadSelectedBank and BankSelectIsClamp: with a switchable bank and without one. -/
theorem witness_banks :
    1 ≤ bankCount banked ∧ banked.cart.length ≤ 0x8001 ∧ io0.cart.controller = .linearBanked ∧
    bankCount { io0 with cart := { image := [], length := 0x4000, controller := .noBanking } } = 0 ∧
    region 0x4000#16 = .switchRom ∧ region 0x7FFF#16 = .switchRom := by decide

/-- RamHoldsLastByteWritten: both ends of every RAM region; another address beside. -/
theorem witness_ram_regions :
    [0x8000#16, 0x9FFF#16, 0xA000#16, 0xBFFF#16, 0xC000#16, 0xCFFF#16, 0xD000#16, 0xDFFF#16, 0xFE00#16,
      0xFE9F#16, 0xFF80#16, 0xFFFE#16].all (fun a => isRamRegion (region a)) = true ∧
    0x8000#16 ≠ 0x9FFF#16 := by decide

/-- ReadRegistersAndUnbackedAddresses, IoWindowWrites: unmapped registers at both ends of their ranges. -/
theorem witness_unmapped_register :
    [0xFF03#16, 0xFF08#16, 0xFF0E#16, 0xFF27#16, 0xFF2F#16, 0xFF46#16, 0xFF4A#16, 0xFF4F#16, 0xFF51#16,
      0xFF7F#16].all (fun a => region a == .io && ioRegAt defaultAddresses a == none
        && !isAudio defaultAddresses a) = true := by decide
theorem witness_unmapped_register_has_no_name : ∀ r, ioAddr defaultAddresses r ≠ 0xFF03#16 := by
  intro r
  cases r <;> decide
theorem witness_audio :
    [0xFF10#16, 0xFF26#16, 0xFF30#16, 0xFF3F#16].all (isAudio defaultAddresses) = true := by decide
theorem witness_plain_register : IoReg.bootOff ≠ .div ∧ IoReg.bootOff ≠ .stat ∧ IoReg.bootOff ≠ .ly ∧
    IoReg.intf ≠ .bootOff := by decide

/-- WriteFaultsExactlyWhereUnbacked: both ends of the range and their neighbours. -/
theorem witness_unbacked :
    (0xE000 ≤ (0xE000#16).toNat ∧ (0xE000#16).toNat ≤ 0xFDFF) ∧
    (0xE000 ≤ (0xFDFF#16).toNat ∧ (0xFDFF#16).toNat ≤ 0xFDFF) ∧
    ¬ (0xE000 ≤ (0xDFFF#16).toNat ∧ (0xDFFF#16).toNat ≤ 0xFDFF) ∧
    ¬ (0xE000 ≤ (0xFE00#16).toNat ∧ (0xFE00#16).toNat ≤ 0xFDFF) := by decide

/-- RomAndProhibitedWritesChangeNothing: each of its three clauses. -/
theorem witness_discarded_writes :
    (0x3FFF#16).toNat ≤ 0x3FFF ∧
    (0x4000 ≤ (0x4000#16).toNat ∧ (0x7FFF#16).toNat ≤ 0x7FFF ∧
      { io0.cart with controller := .noBanking }.controller = .noBanking) ∧
    (0xFEA0 ≤ (0xFEA0#16).toNat ∧ (0xFEFF#16).toNat ≤ 0xFEFF) := by decide

/-- ByteWriteLeavesTheRestAlone, StoreReachesItsAddressOnly: another address whose view no write moves, with
a write to RAM, to BOOT_OFF and into the bank-select range. -/
theorem witness_view_stays :
    ¬ movesView defaultAddresses 0xC000#16 0xC001#16 ∧ ¬ movesView defaultAddresses 0xFF50#16 0x0100#16 ∧
    ¬ movesView defaultAddresses 0x4000#16 0x8000#16 := by
  unfold movesView
  decide

/-- WordAccessIsTwoByteAccesses: plain storage within one region and across two. -/
theorem witness_plain_storage :
    plainStorage defaultAddresses 0xC000#16 = true ∧ plainStorage defaultAddresses (0xC000#16 + 1#16) = true ∧
    plainStorage defaultAddresses 0xFFFE#16 = true ∧ plainStorage defaultAddresses (0xFFFE#16 + 1#16) = true ∧
    plainStorage defaultAddresses 0xFF06#16 = true ∧ plainStorage defaultAddresses 0xFF10#16 = true := by decide

theorem witness_decoded : decode defaultOpcodes [0x21#8, 0x02#8, 0xC0#8, 0x00#8] = .ok (.ldHLd16 0xC002#16, [0x00#8]) := rfl

/-- UnmappedBytesAreRejected: both ends of the list, and an opcode of the map. -/
theorem witness_unmapped_byte :
    0x03#8 ∉ opcodeBytes defaultOpcodes ∧ 0xC3#8 ∈ opcodeBytes defaultOpcodes ∧ isUnmapped 0x03#8 = true ∧ isUnmapped 0xFF#8 = true ∧ isUnmapped 0xC2#8 = true ∧
    isUnmapped 0xC3#8 = false ∧ isUnmapped 0x00#8 = false := by decide

/-- UnmappedOpcodeIsFatal, OnlyUnmappedOpcodesStopTheMachine: a running state at an unmapped opcode. -/
theorem witness_at_unmapped_opcode :
    (launched 0x0152#16 [0xD3#8] z).latch = none ∧ interruptDue (launched 0x0152#16 [0xD3#8] z) = false ∧
    readByte (launched 0x0152#16 [0xD3#8] z) 0x0152#16 ∉
      opcodeBytes (launched 0x0152#16 [0xD3#8] z).params.opcodes ∧ isUnmapped 0xD3#8 = true := by decide

/-- LatchedStateHasNoStep. -/
theorem witness_latched :
    ({ io0 with latch := some (.decodeFault 0xD3#8 0x0152#16) } : State).latch =
      some (.decodeFault 0xD3#8 0x0152#16) := rfl

/-- AbsoluteJump's fixed point: a jump to its own address. -/
theorem witness_self_jump :
    (placed (.jp 0xC000#16)).params.opcodes = defaultOpcodes ∧ (placed (.jp 0xC000#16)).events = [] ∧
    Fetches (placed (.jp 0xC000#16)) [0xC3#8, loByte 0xC000#16, hiByte 0xC000#16] (placed (.jp 0xC000#16)) :=
  ⟨rfl, rfl, rfl, rfl, rfl⟩

/-- ConditionalRelativeJump: Z set and Z clear. AssembledRelativeJumpReachesItsTarget: the furthest targets. -/
theorem witness_relative_jump :
    (fl 0x80#8).z = true ∧ io0.regs.f.z = false ∧
    assembleJrNZ 0x0100#16 0x0181#16 = some (.jrNZ 0x7F#8) ∧
    assembleJrNZ 0x0100#16 0x0082#16 = some (.jrNZ 0x80#8) ∧
    assembleJrNZ 0x0100#16 0x0182#16 = none ∧ assembleJrNZ 0x0100#16 0x0081#16 = none := by decide

/-- StoreReachesItsAddressOnly: a store, its operands, and that it goes on; a RAM address and an unbacked one. -/
theorem witness_store :
    storeOperands .stHLDecA = some (.hlDec, .a) ∧ (∃ t, exec .stHLDecA io0 = .next t) ∧
    isRamRegion (region (pointerAddress { io0 with regs := { z with h := 0xC0#8 } } .hl)) = true ∧
    region (pointerAddress { io0 with regs := { z with h := 0xE0#8 } } .hl) = .unbacked :=
  ⟨rfl, ⟨_, rfl⟩, rfl, rfl⟩

/-- The promises over the whole instruction set: an instruction of each kind they tell apart, each going on. -/
theorem witness_kinds :
    Instr.kind .decB ≠ .store ∧ (∃ t, exec .decB io0 = .next t) ∧ Instr.kind .decB = .dec8 ∧
    Instr.kind .xorHL = .xor ∧ (∃ t, exec .xorHL io0 = .next t) ∧ Instr.kind .nop ≠ .jump ∧
    Instr.kind .nop ≠ .jumpRelative ∧ Instr.kind .nop ≠ .dec8 ∧ Instr.kind .nop ≠ .xor ∧
    (∃ t, exec .nop io0 = .next t) ∧ (∃ t, exec (.jp 0x0000#16) io0 = .next t) ∧
    (∃ t, exec (.jrNZ 0x00#8) io0 = .next t) := by
  refine ⟨by decide, ⟨_, rfl⟩, rfl, rfl, ⟨_, rfl⟩, by decide, by decide, by decide, by decide, ⟨_, rfl⟩,
    ⟨_, rfl⟩, ⟨_, rfl⟩⟩

/-- RegistersChangeOnlyAsDestinations: the premises are met, a register does change. -/
theorem witness_register_changes :
    nextView (fun t => t.regs.b != io0.regs.b) (exec (.ldBd8 0x05#8) io0) = some true ∧
    nextView (fun t => t.regs.sp != io0.regs.sp) (exec (.ldSPd16 0xD000#16) io0) = some true := by decide

/-- ExclusiveOrWithMemory: an address outside the prohibited range, and one inside. -/
theorem witness_memory_operand : region 0xC000#16 ≠ .prohibited ∧ region 0xFEA0#16 = .prohibited := by decide

/-- InterruptTakenAtStepBoundary: both clauses, no latch set. -/
theorem witness_interrupt_boundary :
    (pendingState 0x05#8 0x04#8 0xD000#16 0x1234#16).latch = none ∧
    (pendingState 0x05#8 0x04#8 0xD000#16 0x1234#16).ime = true ∧
    anyInterruptPending (pendingState 0x05#8 0x04#8 0xD000#16 0x1234#16) = true ∧
    anyInterruptPending (pendingState 0xE0#8 0xE0#8 0xD000#16 0x1234#16) = false := by decide

/-- InterruptServiceSequence: the lowest and the highest source, the stack in RAM. -/
theorem witness_interrupt_service :
    (let s := pendingState 0x1F#8 0x10#8 0xD000#16 0x1234#16
     isEnabled s .joypad = true ∧ isRequested s .joypad = true ∧
      isRequested s .vBlank = false ∧ isRequested s .lcdStatus = false ∧ isRequested s .timer = false ∧
      isRequested s .serial = false) ∧
    (let s := pendingState 0x01#8 0x1F#8 0xD000#16 0x1234#16
     isEnabled s .vBlank = true ∧ isRequested s .vBlank = true) ∧
    isRamRegion (region (0xD000#16 - 2#16)) = true ∧
    isRamRegion (region (0xD000#16 - 2#16 + 1#16)) = true := by decide

/-- NoInterruptOnceImeIsClear: IME clear, and a run of two steps that goes on. -/
theorem witness_run :
    (launched 0x0100#16 [0x00#8, 0x00#8] z).ime = false ∧
    nextRegs (runScheduled [[.requestInterrupt .timer], [.timerTick]] (launched 0x0100#16 [0x00#8, 0x00#8] z)) =
      some { z with pc := 0x0102#16 } := by decide

/-- DividerAndTimerPrimitives and ScanlineStatAndJoypadPrimitives: at and below the limits. -/
theorem witness_environment :
    ({ io0.io with tima := 0xFF#8 } : Io).tima = 0xFF#8 ∧ io0.io.tima ≠ 0xFF#8 ∧
    ({ io0.io with ly := 0x99#8 } : Io).ly.toNat < io0.params.lyPeriod ∧ io0.io.ly.toNat < io0.params.lyPeriod := by decide

/-- EnvironmentReachesItsRegistersOnly: a register of the frame. -/
theorem witness_environment_frame :
    IoReg.tma ≠ .div ∧ IoReg.tma ≠ .tima ∧ IoReg.tma ≠ .intf ∧ IoReg.tma ≠ .ly ∧ IoReg.tma ≠ .stat ∧
    IoReg.tma ≠ .joyp := by decide

/-- LoadChecksAndSlicesImage: an image one byte too small, and the least image with each controller type. -/
theorem witness_load :
    (List.replicate 0x3FFF 0x00#8).length < 0x4000 ∧ 0x4000 ≤ (List.replicate 0x4000 0x00#8).length ∧
    (List.replicate 0x4000 0x00#8)[0x0147]? = some 0x00#8 ∧ (List.replicate 0x4000 0x01#8)[0x0147]? = some 0x01#8 ∧
    (List.replicate 0x4000 0x13#8)[0x0147]? = some 0x13#8 := by
  simp only [List.length_replicate, List.getElem?_replicate]
  decide

/-- ConstructionGivesResetState, ConstructedStateMeetsInvariant: a construction that succeeds. -/
theorem witness_construct : ∃ s, construct defaultParams (List.replicate 0x4000 0x00#8) [0x00#8] = .ok s := by
  have h : loadCartridge defaultParams (List.replicate 0x4000 0x00#8) =
      .ok ⟨Memory.ofBytes 0 (List.replicate 0x4000 0x00#8), (List.replicate 0x4000 0x00#8).length, .noBanking⟩ := by
    unfold loadCartridge
    rw [if_neg (by simp only [List.length_replicate]; decide)]
    simp only [List.getD_eq_getElem?_getD, List.getElem?_replicate]
    rfl
  exact ⟨_, by unfold construct; rw [h]⟩

/-- StepKeepsInvariant, ScheduledRunKeepsInvariantAndRom: a state with the invariant that steps. -/
theorem witness_invariant : Inv banked ∧ ∃ t, runScheduled [] banked = .next t := by
  refine ⟨⟨witness_params_legal, by decide, by decide, by decide, by decide, by decide, by decide, by decide,
    by decide, by decide, ?_, by decide⟩, ⟨_, rfl⟩⟩
  unfold bankLegal
  decide

theorem witness_invariant_steps :
    nextRegs (step { banked with boot := [(0, 0x00#8)], io := resetIo, regs := z }) =
      some { z with pc := 0x0001#16 } := by decide

end Sys2Proof.Tests
end

/-! PROOFS. The Register File (10_state.md section 2): register F, one read-after-write law for the eight
registers, the pair views, and the obligations about them. -/

namespace Sys2Proof.Machine

/-! Register F (rule R15). -/

/-- The byte of F is what storing it in F gives back, so it has no bit outside the upper nibble. -/
theorem flagsByte_and_highNibble (f : Flags) : flagsByte f &&& 0xF0#8 = flagsByte f := by
  rw [← flagsByte_flagsOfByte, flagsOfByte_flagsByte]

theorem flagsByte_and_lowNibble (f : Flags) : flagsByte f &&& 0x0F#8 = 0x00#8 := by
  rw [← flagsByte_and_highNibble, BitVec.and_assoc, show 0xF0#8 &&& 0x0F#8 = 0x00#8 from rfl, BitVec.and_zero]

/-- Each flag stands at the bit a write of F takes it from. -/
theorem flagsByte_bits (f : Flags) :
    (flagsByte f).getLsbD 7 = f.z ∧ (flagsByte f).getLsbD 6 = f.n ∧
    (flagsByte f).getLsbD 5 = f.h ∧ (flagsByte f).getLsbD 4 = f.c := by
  have hstored := flagsOfByte_flagsByte f
  exact ⟨congrArg Flags.z hstored, congrArg Flags.n hstored, congrArg Flags.h hstored, congrArg Flags.c hstored⟩

/-- A byte whose low nibble is zero loses nothing when F stores it. -/
theorem and_highNibble_of_lowNibble_zero {v : Byte} (hlow : v &&& 0x0F#8 = 0x00#8) : v &&& 0xF0#8 = v := by
  calc v &&& 0xF0#8
      = (v &&& 0xF0#8) ||| (v &&& 0x0F#8) := by rw [hlow, BitVec.or_zero]
    _ = v &&& (0xF0#8 ||| 0x0F#8) := BitVec.and_or_distrib_left.symm
    _ = v := BitVec.and_allOnes

/-! Reading a register after a write to the same and to another register (rules R10, R15). -/

theorem State.get8_set8_same (s : State) (r : Reg8) (v : Byte) :
    (s.set8 r v).get8 r = if r = .f then v &&& 0xF0#8 else v := by
  split
  next hf => subst hf; exact flagsByte_flagsOfByte v
  next hf => exact Regs.get8_set8_same v hf

theorem State.get8_set8_other (s : State) {r q : Reg8} (v : Byte) (h : q ≠ r) :
    (s.set8 r v).get8 q = s.get8 q :=
  Regs.get8_set8_other v h

/-- Two register writes: the register written first keeps its byte. -/
theorem State.get8_set8_set8_first (s : State) {hi lo : Reg8} (h l : Byte) (hne : hi ≠ lo) (hhi : hi ≠ .f) :
    ((s.set8 hi h).set8 lo l).get8 hi = h := by
  rw [State.get8_set8_other _ l hne, State.get8_set8_same, if_neg hhi]

/-- Two register writes read back as the word they make up, F being given a byte it can hold (rule R12). -/
theorem State.joinBytes_set8_set8 (s : State) {hi lo : Reg8} (h : Byte) {l : Byte} (hne : hi ≠ lo) (hhi : hi ≠ .f)
    (hlo : lo = .f → l &&& 0x0F#8 = 0x00#8) :
    joinBytes (((s.set8 hi h).set8 lo l).get8 hi) (((s.set8 hi h).set8 lo l).get8 lo) = joinBytes h l := by
  rw [State.get8_set8_set8_first s h l hne hhi, State.get8_set8_same]
  split
  next hf => rw [and_highNibble_of_lowNibble_zero (hlo hf)]
  next => rfl

/-! Writing a pair view is writing its two registers (rule R11). -/

theorem State.set16_bc (s : State) (v : Word) : s.set16 .bc v = (s.set8 .b (hiByte v)).set8 .c (loByte v) := rfl
theorem State.set16_de (s : State) (v : Word) : s.set16 .de v = (s.set8 .d (hiByte v)).set8 .e (loByte v) := rfl
theorem State.set16_hl (s : State) (v : Word) : s.set16 .hl v = (s.set8 .h (hiByte v)).set8 .l (loByte v) := rfl
theorem State.set16_af (s : State) (v : Word) : s.set16 .af v = (s.set8 .a (hiByte v)).set8 .f (loByte v) := rfl

/-! The Register File after reset (rule R33). -/

theorem resetRegs_get8 (r : Reg8) : resetRegs.get8 r = 0x00#8 := by
  cases r <;> rfl

theorem resetRegs_get16 (q : Reg16) : resetRegs.get16 q = 0x0000#16 := by
  cases q <;> rfl

/-! The obligations. -/

/-- Settles O2: every such state has the register file `resetRegs`, whose registers and views are all zero. -/
theorem resetRegisterFileIsZero : Obligations.ResetRegisterFileIsZero := by
  refine ⟨fun p cart boot => ?_, anyCartridge, [], rfl⟩
  exact ⟨resetRegs_get8, resetRegs_get16, rfl, rfl, rfl⟩

/-- Settles O4: a pair is two different registers, so after the two writes each holds its own byte; a word is its
two halves, and F keeps a byte whose low nibble is zero. -/
theorem pairViewsRoundTrip : Obligations.PairViewsRoundTrip := by
  intro s v h l
  have hbc (x y : Byte) : ((s.set8 .b x).set8 .c y).get16 .bc = joinBytes x y :=
    s.joinBytes_set8_set8 x (by decide) (by decide) nofun
  have hde (x y : Byte) : ((s.set8 .d x).set8 .e y).get16 .de = joinBytes x y :=
    s.joinBytes_set8_set8 x (by decide) (by decide) nofun
  have hhl (x y : Byte) : ((s.set8 .h x).set8 .l y).get16 .hl = joinBytes x y :=
    s.joinBytes_set8_set8 x (by decide) (by decide) nofun
  have haf (hlow : l &&& 0x0F#8 = 0x00#8) : ((s.set8 .a h).set8 .f l).get16 .af = joinBytes h l :=
    s.joinBytes_set8_set8 h (by decide) (by decide) (fun _ => hlow)
  rw [State.set16_bc, State.set16_de, State.set16_hl, State.set16_af]
  refine ⟨rfl, rfl, rfl, rfl, ?b, State.get8_set8_same _ .c _, ?d, State.get8_set8_same _ .e _,
    ?h, State.get8_set8_same _ .l _, ?a, State.get8_set8_same _ .f _, hbc h l, hde h l, hhl h l, haf,
    (hbc _ _).trans (joinBytes_hi_lo v), (hde _ _).trans (joinBytes_hi_lo v), (hhl _ _).trans (joinBytes_hi_lo v), rfl⟩
  case b | d | h | a => exact s.get8_set8_set8_first _ _ (by decide) (by decide)

/-- Settles O5: the bits are those a write of F takes the flags from, and a write keeps the upper nibble alone. -/
theorem flagRegisterHoldsFlagsAboveZeroNibble : Obligations.FlagRegisterHoldsFlagsAboveZeroNibble := by
  intro s v w f
  obtain ⟨hz, hn, hh, hc⟩ := flagsByte_bits s.regs.f
  refine ⟨hz, hn, hh, hc, flagsByte_and_lowNibble s.regs.f, s.get8_set8_same .f v, ?_, flagsByte_and_highNibble f⟩
  rw [State.set16_af]
  exact State.get8_set8_same _ .f (loByte w)

/-- Settles O6: the laws of reading a register after a write, and a register write is an update of `regs`. -/
theorem registerWriteTouchesOneRegister : Obligations.RegisterWriteTouchesOneRegister := by
  intro s r v
  exact ⟨s.get8_set8_same r v, fun q hq => s.get8_set8_other v hq,
    Regs.set8_sp s.regs r v, Regs.set8_pc s.regs r v, rfl⟩

end Sys2Proof.Machine

/-! PROOFS. Byte reads and byte writes (20_memory.md): one equation for each region of the address, the bank
clamp, the RAM store as an address space, and the obligations about them. -/

namespace Sys2Proof.Machine

/-! The regions from their bounds (rule R41). -/

theorem region_fixedRom {a : Word} (h : a.toNat ≤ 0x3FFF) : region a = .fixedRom :=
  region_of_bounds (Nat.zero_le _) h

theorem region_switchRom {a : Word} (hlo : 0x4000 ≤ a.toNat) (hhi : a.toNat ≤ 0x7FFF) : region a = .switchRom :=
  region_of_bounds hlo hhi

theorem region_prohibited {a : Word} (hlo : 0xFEA0 ≤ a.toNat) (hhi : a.toNat ≤ 0xFEFF) : region a = .prohibited :=
  region_of_bounds hlo hhi

theorem region_ie : region 0xFFFF#16 = .ie := by decide

/-! Reads, by region (rules R44, R45, R57). -/

theorem readByte_fixedRom {s : State} {a : Word} (h : region a = .fixedRom) : readByte s a = readFixedRom s a := by
  unfold readByte
  rw [h]

theorem readByte_switchRom {s : State} {a : Word} (h : region a = .switchRom) :
    readByte s a = readSwitchRom s a := by
  unfold readByte
  rw [h]

theorem readByte_ie {s : State} {a : Word} (h : region a = .ie) : readByte s a = s.io.ie := by
  unfold readByte
  rw [h]

theorem overlayActive_iff (s : State) : overlayActive s = true ↔ s.io.bootOff = 0x00#8 := beq_iff_eq

/-- The boot overlay covers the lowest 0x100 bytes of the fixed bank while BOOT_OFF is zero (rule R44). -/
theorem readFixedRom_eq (s : State) (a : Word) :
    readFixedRom s a =
      if a.toNat ≤ 0x00FF ∧ s.io.bootOff = 0x00#8 then bootAt s a.toNat else imageAt s a.toNat := by
  have hcovered : a.toNat < Config.bootSize ↔ a.toNat ≤ 0x00FF := Nat.lt_succ_iff
  simp only [readFixedRom, overlayActive_iff, hcovered]

theorem readSwitchRom_banked {s : State} (a : Word) (h : 1 ≤ bankCount s) :
    readSwitchRom s a = imageAt s (s.bank.toNat * 0x4000 + (a.toNat - 0x4000)) :=
  if_neg (Nat.one_le_iff_ne_zero.mp h)

theorem readSwitchRom_unbanked {s : State} (a : Word) (h : bankCount s = 0) :
    readSwitchRom s a = s.params.unmappedReadValue := if_pos h

theorem imageAt_beyond {s : State} {offset : Nat} (h : s.cart.length ≤ offset) : imageAt s offset = 0x00#8 :=
  if_neg (Nat.not_lt.mpr h)

/-! Writes, by region (rules R50 to R57). -/

theorem writeByte_fixedRom (s : State) {a : Word} (v : Byte) (h : region a = .fixedRom) :
    writeByte s a v = .ok s := by
  unfold writeByte
  rw [h]

theorem writeByte_prohibited (s : State) {a : Word} (v : Byte) (h : region a = .prohibited) :
    writeByte s a v = .ok s := by
  unfold writeByte
  rw [h]

theorem writeByte_switchRom (s : State) {a : Word} (v : Byte) (h : region a = .switchRom) :
    writeByte s a v = .ok (writeBank s v) := by
  unfold writeByte
  rw [h]

theorem writeByte_ie (s : State) {a : Word} (v : Byte) (h : region a = .ie) :
    writeByte s a v = .ok (s.setIo { s.io with ie := v }) := by
  unfold writeByte
  rw [h]

theorem writeByte_ram (s : State) {a : Word} (v : Byte) (h : isRamRegion (region a) = true) :
    writeByte s a v = .ok (writeRam s a v) := by
  unfold writeByte
  cases hr : region a
  case fixedRom | switchRom | unbacked | prohibited | io | ie => rw [hr] at h; cases h
  all_goals rfl

theorem writeBank_noBanking {s : State} (v : Byte) (h : s.cart.controller = .noBanking) : writeBank s v = s := by
  unfold writeBank
  rw [h]

theorem writeBank_linearBanked {s : State} (v : Byte) (h : s.cart.controller = .linearBanked) :
    writeBank s v = s.setBank (clampBank (bankCount s) v) := by
  unfold writeBank
  rw [h]

/-- The clamp as a number: N is selected only where the byte exceeds it, so it fits in BANK (rule R52). -/
theorem clampBank_toNat (n : Nat) (v : Byte) :
    (clampBank n v).toNat = if n = 0 then 1 else if v.toNat = 0 then 1 else if n < v.toNat then n else v.toNat := by
  have hzero : v = 0x00#8 ↔ v.toNat = 0 := BitVec.toNat_eq
  have hfits (hlt : n < v.toNat) : (BitVec.ofNat 8 n).toNat = n :=
    Nat.mod_eq_of_lt (hlt.trans v.isLt)
  unfold clampBank
  simp only [hzero]
  split_ifs with _ _ hlt
  · rfl
  · rfl
  · exact hfits hlt
  · rfl

/-! The address space after a RAM write (rule R53). -/

/-- No other address reads the RAM cell that was written. -/
theorem readByte_writeRam_other (s : State) {a b : Word} (v : Byte) (h : b ≠ a) :
    readByte (writeRam s a v) b = readByte s b :=
  readByte_congr rfl (readRam_writeRam_other s v h) (fun _ => rfl) (fun _ => rfl) (fun _ => rfl) (.inl rfl) (.inl rfl)

/-! The obligations. -/

/-- Settles O10: the write is `writeRam`, which the laws of the RAM store describe at its own and at any other
address; it is an update of `ram`. -/
theorem ramHoldsLastByteWritten : Obligations.RamHoldsLastByteWritten := by
  intro s a v hram
  exact ⟨writeRam s a v, writeByte_ram s v hram, readByte_writeRam_same s v hram,
    fun b hb => readByte_writeRam_other s v hb, rfl⟩

/-- Settles O8: the two clauses are the two branches of the read of the fixed bank. -/
theorem readFixedBankUnderBootOverlay : Obligations.ReadFixedBankUnderBootOverlay := by
  intro s a ha
  rw [readByte_fixedRom (region_fixedRom ha), readFixedRom_eq]
  exact ⟨fun hcovered => if_pos hcovered, fun huncovered => if_neg huncovered⟩

/-- Settles O9: the window reads the image at the offset of BANK, or nothing where there is no bank to select. -/
theorem readSelectedBank : Obligations.ReadSelectedBank := by
  intro s a hlo hhi
  rw [readByte_switchRom (region_switchRom hlo hhi)]
  exact ⟨readSwitchRom_banked a, readSwitchRom_unbanked a, fun _ => imageAt_beyond⟩

/-- Settles O13: each of the three ranges is one region, or one controller's answer in one region. -/
theorem romAndProhibitedWritesChangeNothing : Obligations.RomAndProhibitedWritesChangeNothing := by
  rintro s a v (hfixed | ⟨hlo, hhi, hctl⟩ | ⟨hlo, hhi⟩)
  · exact writeByte_fixedRom s v (region_fixedRom hfixed)
  · rw [writeByte_switchRom s v (region_switchRom hlo hhi), writeBank_noBanking v hctl]
  · exact writeByte_prohibited s v (region_prohibited hlo hhi)

/-- Settles O14: the write sets BANK to the clamp of the byte, whose value is `clampBank_toNat`. -/
theorem bankSelectIsClamp : Obligations.BankSelectIsClamp := by
  intro s a v hlo hhi hctl
  refine ⟨s.setBank (clampBank (bankCount s) v), ?_, rfl, clampBank_toNat (bankCount s) v⟩
  rw [writeByte_switchRom s v (region_switchRom hlo hhi), writeBank_linearBanked v hctl]

/-- Settles O16: 0xFFFF is the region of IE, which a write stores whole and a read gives back. -/
theorem interruptEnableStoresWholeByte : Obligations.InterruptEnableStoresWholeByte := by
  intro s v
  exact ⟨s.setIo { s.io with ie := v }, writeByte_ie s v region_ie, rfl, readByte_ie region_ie⟩

end Sys2Proof.Machine

/-! PROOFS. The encoding (30_encoding.md): every instruction's encoded form, the bounds of a length, and the
obligation about them. -/

namespace Sys2Proof

open Laws.EncodedForm in
/-- The encoded form of every instruction, from the lemma of its constructor (rules R80, R84, R89, R90). -/
theorem encodedForm_statement : ∀ i : Instr, Statement i
  | .nop => nop
  | .ldBCd16 v => ldBCd16 v
  | .ldDEd16 v => ldDEd16 v
  | .ldHLd16 v => ldHLd16 v
  | .ldSPd16 v => ldSPd16 v
  | .ldBd8 v => ldBd8 v
  | .ldCd8 v => ldCd8 v
  | .ldDd8 v => ldDd8 v
  | .ldEd8 v => ldEd8 v
  | .ldHd8 v => ldHd8 v
  | .ldLd8 v => ldLd8 v
  | .ldAd8 v => ldAd8 v
  | .stBCA => stBCA
  | .stDEA => stDEA
  | .stHLDecA => stHLDecA
  | .stHLB => stHLB
  | .stHLC => stHLC
  | .stHLD => stHLD
  | .stHLE => stHLE
  | .stHLH => stHLH
  | .stHLL => stHLL
  | .stHLA => stHLA
  | .decB => decB
  | .decC => decC
  | .decD => decD
  | .decE => decE
  | .decH => decH
  | .decL => decL
  | .decA => decA
  | .xorB => xorB
  | .xorC => xorC
  | .xorD => xorD
  | .xorE => xorE
  | .xorH => xorH
  | .xorL => xorL
  | .xorA => xorA
  | .xorHL => xorHL
  | .jp v => jp v
  | .jrNZ v => jrNZ v

/-- No format is longer than F3 (rules R80, R81). -/
theorem opcodeLength_le_three {o : Opcodes} {op : Byte} {n : Nat} (h : opcodeLength o op = some n) : n ≤ 3 := by
  obtain ⟨shape, -, rfl⟩ := Option.map_eq_some_iff.mp h
  cases shape <;> simp [shapeLength]

/-- Settles O23: the opcode byte of the encoding gives the length, and a length an opcode byte gives is 1 to 3. -/
theorem opcodeByteGivesLength : Obligations.OpcodeByteGivesLength := by
  intro o i hdistinct
  obtain ⟨_, hform⟩ := encodedForm_statement i
  obtain ⟨hlength, hopcode⟩ := hform o
  obtain ⟨op, rest, hbytes, hop⟩ := hopcode hdistinct
  exact ⟨hlength, opcodeLength_pos hop, opcodeLength_le_three hop, op, rest, hbytes, hop⟩

end Sys2Proof

/-! PROOFS. From the bytes at PC to the instruction a step runs (rules R70, R83, R90, R224). -/

namespace Sys2Proof

/-- A list the decoder uses up is as long as its opcode byte says (rule R90). -/
theorem opcodeLength_of_decode {o : Opcodes} {op : Byte} {rest : List Byte} {i : Instr}
    (h : decode o (op :: rest) = .ok (i, [])) : opcodeLength o op = some (rest.length + 1) := by
  cases hrow : opcodeRow o op with
  | none => rw [decode_unmapped hrow] at h; cases h
  | some shape =>
    rw [opcodeLength, hrow, Option.map_some]
    match shape, rest with
    | .f1 _, rest => rw [decode_f1 hrow] at h; cases h; rfl
    | .f2 _, b1 :: more => rw [decode_f2 hrow] at h; cases h; rfl
    | .f3 _, b1 :: b2 :: more => rw [decode_f3 hrow] at h; cases h; rfl
    | .f2 _, [] | .f3 _, [] | .f3 _, [_] => simp [decode, hrow] at h

namespace Machine

/-- The first byte read stands at the address, the others are read from the next one on. -/
theorem readBytes_eq_cons {s t : State} {a : Word} {b : Byte} {bs : List Byte} {n : Nat}
    (h : readBytes s a (n + 1) = (b :: bs, t)) :
    readByte s a = b ∧ readBytes (afterRead s a) (a + 1#16) n = (bs, t) := by
  cases h
  exact ⟨rfl, rfl⟩

/-- A fetch finds the instruction that the bytes from the address on decode to. -/
theorem fetch_of_decode {s t : State} {a : Word} {op : Byte} {rest : List Byte} {i : Instr}
    (hread : readBytes s a (rest.length + 1) = (op :: rest, t))
    (hdecode : decode s.params.opcodes (op :: rest) = .ok (i, [])) : fetch s a = .instr i t := by
  obtain ⟨hop, hmore⟩ := readBytes_eq_cons hread
  simp only [fetch, hop, opcodeLength_of_decode hdecode, Nat.add_sub_cancel, hmore, hdecode]

/-- A step that is not halted and takes no interrupt is one instruction or one decode fault (rule R224). -/
theorem step_of_running {s : State} (hlatch : s.latch = none) (hdue : interruptDue s = false) :
    step s = stepInstr s.clearEvents := by
  simp [step, hlatch, hdue]

/-- A step runs the instruction that the bytes at PC decode to. -/
theorem step_of_fetches {s t : State} {op : Byte} {rest : List Byte} {i : Instr} (hfetches : Fetches s (op :: rest) t)
    (hdecode : decode s.params.opcodes (op :: rest) = .ok (i, [])) : step s = exec i t := by
  obtain ⟨hlatch, hdue, hread⟩ := hfetches
  have hfetch : fetch s.clearEvents s.clearEvents.regs.pc = .instr i t := fetch_of_decode hread hdecode
  rw [step_of_running hlatch hdue, stepInstr, hfetch]

/-- The same under the opcode bytes of rule R86, where decoding given bytes is a computation. -/
theorem step_of_fetches_default {s t : State} {op : Byte} {rest : List Byte} {i : Instr}
    (hdefault : s.params.opcodes = defaultOpcodes) (hdecode : decode defaultOpcodes (op :: rest) = .ok (i, []))
    (hfetches : Fetches s (op :: rest) t) : step s = exec i t :=
  step_of_fetches hfetches (hdefault ▸ hdecode)

end Machine

end Sys2Proof

/-! PROOFS. Immediate loads (40_loads_immediate.md): the next state of each of the two load operations, and the
obligations about them. -/

namespace Sys2Proof.Machine

/-- Rule R100. -/
theorem load16_eq (p : Reg16) (v : Word) (s : State) :
    load16 p v s = .next { s with regs := { s.regs.set16 p v with pc := s.regs.pc + 3#16 } } := by
  simp [load16, State.advance, State.setPc, State.set16]

/-- Rule R105. -/
theorem load8_eq (r : Reg8) (v : Byte) (s : State) :
    load8 r v s = .next { s with regs := { s.regs.set8 r v with pc := s.regs.pc + 2#16 } } := by
  simp [load8, State.advance, State.setPc, State.set8]

/-! A pair given two bytes (rule R11): the first goes to its high register, the second to its low one. -/

theorem Regs.set16_bc_joinBytes (g : Regs) (hi lo : Byte) :
    g.set16 .bc (joinBytes hi lo) = { g with b := hi, c := lo } := by
  simp [Regs.set16, Regs.set8]

theorem Regs.set16_de_joinBytes (g : Regs) (hi lo : Byte) :
    g.set16 .de (joinBytes hi lo) = { g with d := hi, e := lo } := by
  simp [Regs.set16, Regs.set8]

theorem Regs.set16_hl_joinBytes (g : Regs) (hi lo : Byte) :
    g.set16 .hl (joinBytes hi lo) = { g with h := hi, l := lo } := by
  simp [Regs.set16, Regs.set8]

/-- Settles O30: each instruction is `load16` of its pair; the bytes at PC decode to it with the immediate whose
halves are byte 2 and byte 1. -/
theorem loadImmediate16 : Obligations.LoadImmediate16 := by
  refine ⟨fun s v => ⟨load16_eq .bc v s, load16_eq .de v s, load16_eq .hl v s, load16_eq .sp v s⟩,
    fun s t b1 b2 hdefault => ?_⟩
  have hstep {op : Byte} (mk : Word → Instr)
      (hdecode : decode defaultOpcodes [op, b1, b2] = .ok (mk (joinBytes b2 b1), []))
      (h : Fetches s [op, b1, b2] t) : step s = exec (mk (joinBytes b2 b1)) t :=
    step_of_fetches_default hdefault hdecode h
  have hbc := load16_eq .bc (joinBytes b2 b1) t
  have hde := load16_eq .de (joinBytes b2 b1) t
  have hhl := load16_eq .hl (joinBytes b2 b1) t
  have hsp := load16_eq .sp (joinBytes b2 b1) t
  rw [Regs.set16_bc_joinBytes] at hbc
  rw [Regs.set16_de_joinBytes] at hde
  rw [Regs.set16_hl_joinBytes] at hhl
  exact ⟨fun h => (hstep .ldBCd16 rfl h).trans hbc, fun h => (hstep .ldDEd16 rfl h).trans hde,
    fun h => (hstep .ldHLd16 rfl h).trans hhl, fun h => (hstep .ldSPd16 rfl h).trans hsp⟩

/-- Settles O31: each instruction is `load8` of its register, and the bytes at PC decode to it with byte 1. -/
theorem loadImmediate8 : Obligations.LoadImmediate8 := by
  refine ⟨fun s v => ⟨load8_eq .b v s, load8_eq .c v s, load8_eq .d v s, load8_eq .e v s, load8_eq .h v s,
    load8_eq .l v s, load8_eq .a v s⟩, fun s t v hdefault => ?_⟩
  have hstep {op : Byte} (mk : Byte → Instr) (hdecode : decode defaultOpcodes [op, v] = .ok (mk v, []))
      (h : Fetches s [op, v] t) : step s = exec (mk v) t := step_of_fetches_default hdefault hdecode h
  exact ⟨fun h => (hstep .ldBd8 rfl h).trans (load8_eq .b v t),
    fun h => (hstep .ldCd8 rfl h).trans (load8_eq .c v t),
    fun h => (hstep .ldDd8 rfl h).trans (load8_eq .d v t),
    fun h => (hstep .ldEd8 rfl h).trans (load8_eq .e v t),
    fun h => (hstep .ldHd8 rfl h).trans (load8_eq .h v t),
    fun h => (hstep .ldLd8 rfl h).trans (load8_eq .l v t),
    fun h => (hstep .ldAd8 rfl h).trans (load8_eq .a v t)⟩

end Sys2Proof.Machine

/-! PROOFS. Stores (41_stores.md): the next state of a store through each pointer, and the obligation about them. -/

namespace Sys2Proof.Machine

/-- Only (HL-) changes its pointer (rule R120). -/
theorem afterPointer_of_ne_hlDec (s : State) {p : Pointer} (h : p ≠ .hlDec) : afterPointer s p = s := by
  cases p
  case hlDec => exact absurd rfl h
  all_goals rfl

/-- (HL-) decrements HL, whose halves are the registers H and L (rules R11, R120). -/
theorem afterPointer_hlDec (s : State) :
    afterPointer s .hlDec =
      { s with regs := { s.regs with h := hiByte (s.get16 .hl - 1#16), l := loByte (s.get16 .hl - 1#16) } } := rfl

/-- A byte write leaves every pair as it was, so a pointer's update after it starts from the address written. -/
@[simp] theorem memWrite_get16 (s : State) (a : Word) (v : Byte) (p : Reg16) :
    (memWrite s a v).get16 p = s.get16 p := by
  simp [State.get16]

/-- Rule R120 without the decrement. -/
theorem storeThrough_eq {p : Pointer} (h : p ≠ .hlDec) (r : Reg8) (s : State) :
    storeThrough p r s =
      .next { memWrite s (pointerAddress s p) (s.get8 r) with regs := { s.regs with pc := s.regs.pc + 1#16 } } := by
  simp [storeThrough, afterPointer_of_ne_hlDec _ h, State.advance, State.setPc]

/-- Rule R120 with the decrement of HL after the write. -/
theorem storeThrough_hlDec (r : Reg8) (s : State) :
    storeThrough .hlDec r s =
      .next { memWrite s (s.get16 .hl) (s.get8 r) with
        regs := { s.regs with h := hiByte (s.get16 .hl - 1#16), l := loByte (s.get16 .hl - 1#16),
                              pc := s.regs.pc + 1#16 } } := by
  simp [storeThrough, afterPointer_hlDec, pointerAddress, pointerPair, State.advance, State.setPc]

/-- Settles O32: each instruction is `storeThrough` of its pointer and register, and only `LD (HL-),A` uses the
decrementing pointer. -/
theorem storeThroughPointer : Obligations.StoreThroughPointer := by
  intro s
  have hHL (r : Reg8) := storeThrough_eq (p := .hl) (by decide) r s
  exact ⟨storeThrough_eq (p := .bc) (by decide) .a s, storeThrough_eq (p := .de) (by decide) .a s,
    storeThrough_hlDec .a s, hHL .b, hHL .c, hHL .d, hHL .e, hHL .h, hHL .l, hHL .a⟩

end Sys2Proof.Machine

/-! PROOFS. The ALU (42_alu.md): the flags of the two operations as tests on their operands, the next state of
each operation, and the obligations about them. -/

namespace Sys2Proof.Machine

/-! Flags. The zero test on a result is an equality of the operands. -/

/-- Rule R140: a decrement gives zero exactly where the old value was 1. -/
theorem decFlags_eq (v : Byte) (old : Flags) : decFlags v old = flagsAfterDec v old := by
  have hzero : (v - 1#8 == 0x00#8) = (v == 0x01#8) := by
    rw [Bool.eq_iff_iff, beq_iff_eq, beq_iff_eq]
    exact sub_eq_zero
  rw [decFlags, flagsAfterDec, hzero]

/-- Rule R150: an exclusive-or gives zero exactly where the operands are equal. -/
theorem xorFlags_xor (a v : Byte) : xorFlags (a ^^^ v) = ⟨a == v, false, false, false⟩ := by
  have hzero : (a ^^^ v == 0x00#8) = (a == v) := by
    rw [Bool.eq_iff_iff, beq_iff_eq, beq_iff_eq]
    exact BitVec.xor_eq_zero_iff
  rw [xorFlags, hzero]

/-! The next state. -/

/-- Rule R140. -/
theorem decrement_eq (r : Reg8) (s : State) :
    decrement r s =
      .next { s with regs := { s.regs.set8 r (s.get8 r - 1#8) with
                               f := flagsAfterDec (s.get8 r) s.regs.f, pc := s.regs.pc + 1#16 } } := by
  simp [decrement, decFlags_eq, State.setFlags, State.advance, State.setPc, State.set8]

/-- Rule R150. -/
theorem xorWith_eq (v : Byte) (s : State) : xorWith v s = .next { s with regs := regsAfterXor s.regs v } := by
  rw [xorWith, xorFlags_xor]
  rfl

/-- Rule R157: with A itself as the operand the result is zero. -/
theorem regsAfterXor_self (g : Regs) :
    regsAfterXor g g.a = { g with a := 0x00#8, f := ⟨true, false, false, false⟩, pc := g.pc + 1#16 } := by
  simp [regsAfterXor]

/-- Rule R163: the operand is the byte at HL, whose read may use up a free byte (rule R48). -/
theorem exec_xorHL (s : State) :
    exec .xorHL s =
      .next { s with regs := regsAfterXor s.regs (readByte s (s.get16 .hl)),
                     oracle := s.oracle + if region (s.get16 .hl) = .prohibited then 1 else 0 } := by
  have hread : exec .xorHL s = xorWith (readByte s (s.get16 .hl)) (afterRead s (s.get16 .hl)) := rfl
  rw [hread, xorWith_eq, afterRead_eq]
  rfl

/-! The obligations. -/

/-- Settles O35: each instruction is `decrement` of its register, and its opcode byte decodes to it. -/
theorem decrementRegister : Obligations.DecrementRegister := by
  refine ⟨fun s => ⟨decrement_eq .b s, decrement_eq .c s, decrement_eq .d s, decrement_eq .e s, decrement_eq .h s,
    decrement_eq .l s, decrement_eq .a s⟩, fun s t hdefault => ?_⟩
  refine ⟨?_, ?_, ?_, ?_, ?_, ?_, ?_⟩ <;> exact step_of_fetches_default hdefault rfl

/-- Settles O36: each instruction is `xorWith` its register's byte, and its opcode byte decodes to it. -/
theorem exclusiveOrWithRegister : Obligations.ExclusiveOrWithRegister := by
  refine ⟨fun s => ?_, fun s t hdefault => ?_⟩
  · have hself : exec .xorA s = .next { s with regs := regsAfterXor s.regs s.regs.a } := xorWith_eq s.regs.a s
    rw [regsAfterXor_self] at hself
    exact ⟨xorWith_eq s.regs.b s, xorWith_eq s.regs.c s, xorWith_eq s.regs.d s, xorWith_eq s.regs.e s,
      xorWith_eq s.regs.h s, xorWith_eq s.regs.l s, hself⟩
  · refine ⟨?_, ?_, ?_, ?_, ?_, ?_, ?_⟩ <;> exact step_of_fetches_default hdefault rfl

/-- Settles O37: the next state is that of `exec_xorHL`, where only the Register File and the count of free bytes
are new; away from the prohibited range the count grows by nothing. -/
theorem exclusiveOrWithMemory : Obligations.ExclusiveOrWithMemory := by
  refine ⟨fun s => ⟨_, exec_xorHL s, rfl, rfl, fun hreadable => ?_⟩,
    fun s t hdefault => step_of_fetches_default hdefault rfl⟩
  rw [if_neg hreadable, Nat.add_zero]

end Sys2Proof.Machine

/-! PROOFS. Control transfer (43_control.md): the next state of the jumps and of NOP, and the obligations about
them. -/

namespace Sys2Proof.Machine

/-- Advancing leaves everything but PC. -/
theorem State.advance_eq (s : State) (n : Nat) :
    s.advance n = { s with regs := { s.regs with pc := s.regs.pc + BitVec.ofNat 16 n } } := rfl

/-- Rule R170. -/
theorem exec_jp (a : Word) (s : State) : exec (.jp a) s = .next { s with regs := { s.regs with pc := a } } := rfl

/-- Rule R172. -/
theorem exec_nop (s : State) : exec .nop s = .next { s with regs := { s.regs with pc := s.regs.pc + 1#16 } } := rfl

/-- Rule R171, not taken: the length alone. -/
theorem jumpRelative_notTaken {c : Cond} (e : Byte) {s : State} (h : condHolds s c = false) :
    jumpRelative c e s = .next { s with regs := { s.regs with pc := s.regs.pc + 2#16 } } := by
  rw [jumpRelative, h, if_neg Bool.false_ne_true, State.advance_eq]

/-- Rule R171, taken: the displacement is added to the PC past the instruction. -/
theorem jumpRelative_taken {c : Cond} (e : Byte) {s : State} (h : condHolds s c = true) :
    jumpRelative c e s = .next { s with regs := { s.regs with pc := s.regs.pc + 2#16 + sext16 e } } := by
  rw [jumpRelative, h, if_pos rfl, State.advance_eq]
  rfl

/-- The condition NZ is the Zero flag clear (rule R171). -/
theorem condHolds_nz (s : State) : condHolds s .nz = !s.regs.f.z := rfl

/-- A step on the bytes of a JP goes to the word they hold, low byte first (rules R86, R170). -/
theorem step_jp_of_fetches {s t : State} {b1 b2 : Byte} (hdefault : s.params.opcodes = defaultOpcodes)
    (hfetches : Fetches s [0xC3#8, b1, b2] t) :
    step s = .next { t with regs := { t.regs with pc := joinBytes b2 b1 } } := by
  have hdecode : decode defaultOpcodes [0xC3#8, b1, b2] = .ok (.jp (joinBytes b2 b1), []) := rfl
  rw [step_of_fetches_default hdefault hdecode hfetches, exec_jp]

/-- Settles O38: a jump sets PC to its word; where that word is PC already, the next state is the old one. -/
theorem absoluteJump : Obligations.AbsoluteJump := by
  refine ⟨fun s a => exec_jp a s, fun s t b1 b2 => step_jp_of_fetches, fun s hdefault _ hfetches => ?_⟩
  rw [step_jp_of_fetches hdefault hfetches, joinBytes_hi_lo]

/-- Settles O39: NZ fails where Z is set and holds where it is clear; the bytes at PC decode to the jump. -/
theorem conditionalRelativeJump : Obligations.ConditionalRelativeJump := by
  refine ⟨fun s e => ⟨fun hz => ?_, fun hz => ?_⟩, fun s t e hdefault => step_of_fetches_default hdefault rfl⟩
  · exact jumpRelative_notTaken e (by rw [condHolds_nz, hz]; rfl)
  · exact jumpRelative_taken e (by rw [condHolds_nz, hz]; rfl)

/-- Settles O41: NOP adds its length to PC, and the byte at PC decodes to it. -/
theorem noOperation : Obligations.NoOperation :=
  ⟨exec_nop, fun _ t hdefault hfetches => (step_of_fetches_default hdefault rfl hfetches).trans (exec_nop t)⟩

end Sys2Proof.Machine

/-! PROOFS. Faults, interrupts and timers (60_exceptions.md): the bits of the controller's registers, which source is
serviced and what its service writes, the fault of an unmapped opcode, and the obligations about them. -/

namespace Sys2Proof.Machine

/-! The interrupt controller (rules R186 to R190). -/

/-- The mask of a source has the bit of that source, and of no other (rule R186). -/
theorem interruptMask_getLsbD (n m : Interrupt) : (interruptMask n).getLsbD (interruptBit m) = decide (m = n) := by
  cases n <;> cases m <;> rfl

theorem interruptBit_lt_eight (n : Interrupt) : interruptBit n < 8 := by
  cases n <;> decide

theorem isRequested_requestInterrupt (s : State) (n m : Interrupt) :
    isRequested (requestInterrupt s n) m = (decide (m = n) || isRequested s m) := by
  rw [isRequested, intf_requestInterrupt, BitVec.getLsbD_or, interruptMask_getLsbD, Bool.or_comm]
  rfl

theorem isRequested_clearInterrupt (s : State) (n m : Interrupt) :
    isRequested (clearInterrupt s n) m = (!decide (m = n) && isRequested s m) := by
  rw [isRequested, intf_clearInterrupt, BitVec.getLsbD_and, BitVec.getLsbD_not, interruptMask_getLsbD,
    decide_eq_true (interruptBit_lt_eight m), Bool.true_and, Bool.and_comm]
  rfl

/-- Settles O47: a request and a clear change IF by the mask of the source, which has that source's bit alone; the
pending predicate is a comparison with zero. -/
theorem interruptControllerOperations : Obligations.InterruptControllerOperations := by
  intro s n
  exact ⟨rfl, rfl, rfl, rfl, isRequested_requestInterrupt s n, isRequested_clearInterrupt s n, bne_iff_ne,
    anyInterruptPending_iff s⟩

/-! The source that is serviced (rule R193). -/

theorem mem_allInterrupts (n : Interrupt) : n ∈ allInterrupts := by
  cases n <;> decide

/-- The order of priority is that of the bits. -/
theorem allInterrupts_rising : allInterrupts.Pairwise (fun m n => interruptBit m < interruptBit n) := by decide

/-- The search finds the pending source with the lowest bit: the sources before it have lower bits. -/
theorem firstPending_of_lowest {s : State} {n : Interrupt} (henabled : isEnabled s n = true)
    (hrequested : isRequested s n = true)
    (hlowest : ∀ m, interruptBit m < interruptBit n → ¬ (isEnabled s m = true ∧ isRequested s m = true)) :
    firstPending s = some n := by
  obtain ⟨before, after, hsplit⟩ := List.append_of_mem (mem_allInterrupts n)
  have hrising := allInterrupts_rising
  rw [hsplit, List.pairwise_append] at hrising
  obtain ⟨-, -, hlower⟩ := hrising
  refine List.find?_eq_some_iff_append.mpr ⟨?_, before, after, hsplit, fun m hm => ?_⟩
  · rw [henabled, hrequested, Bool.and_true]
  · simpa [or_iff_not_imp_left] using hlowest m (hlower m hm n List.mem_cons_self)

/-! A word in RAM (rules R53, R58, R59), and what a read of it does not depend on. -/

theorem memWrite_ram (s : State) {a : Word} (v : Byte) (h : isRamRegion (region a) = true) :
    memWrite s a v = writeRam s a v := by
  rw [memWrite, writeByte_ram s v h]

/-- A word in RAM reads back: its two bytes stand at different addresses. -/
theorem readWord_memWriteWord_ram (s : State) {a : Word} (v : Word) (hlo : isRamRegion (region a) = true)
    (hhi : isRamRegion (region (a + 1#16)) = true) : readWord (memWriteWord s a v) a = v := by
  have hne : a ≠ a + 1#16 := by bv_omega
  rw [readWord, memWriteWord, memWrite_ram _ _ hlo, memWrite_ram _ _ hhi, readByte_writeRam_same _ _ hhi,
    readByte_writeRam_other _ _ hne, readByte_writeRam_same _ _ hlo, joinBytes_hi_lo]

theorem readByte_withRegs (s : State) (g : Regs) (a : Word) : readByte { s with regs := g } a = readByte s a :=
  readByte_of_same_memory a rfl rfl rfl rfl rfl rfl (.inl rfl)

theorem readWord_withRegs (s : State) (g : Regs) (a : Word) : readWord { s with regs := g } a = readWord s a := by
  simp only [readWord, readByte_withRegs]

/-! Interrupt service (rule R192). -/

/-- The state the push starts from: the request and IME cleared, SP at the new top of the stack. -/
def beforePush (s : State) (n : Interrupt) : State :=
  { s with ime := false, regs := { s.regs with sp := s.regs.sp - 2#16 },
           io := { s.io with intf := s.io.intf &&& ~~~ interruptMask n } }

/-- Service is the push of PC from `beforePush`, with SP and PC the only registers that are new. -/
theorem takeInterrupt_eq (s : State) (n : Interrupt) :
    takeInterrupt s n =
      { memWriteWord (beforePush s n) (s.regs.sp - 2#16) s.regs.pc with
        regs := { s.regs with sp := s.regs.sp - 2#16, pc := interruptVector s.params.vector n } } := by
  have hsetPc : takeInterrupt s n =
      (memWriteWord (beforePush s n) (s.regs.sp - 2#16) s.regs.pc).setPc (interruptVector s.params.vector n) := rfl
  rw [hsetPc, State.setPc, memWriteWord_regs]
  rfl

theorem serviceInterrupt_of_firstPending {s : State} {n : Interrupt} (h : firstPending s = some n) :
    serviceInterrupt s = takeInterrupt s n := by
  rw [serviceInterrupt, h]

/-- Settles O49: the source is the one the search finds, its service is the push of PC and the two new registers, and
a word pushed to RAM reads back. -/
theorem interruptServiceSequence : Obligations.InterruptServiceSequence := by
  intro s n henabled hrequested hlowest
  have hservice : serviceInterrupt s = takeInterrupt s n :=
    serviceInterrupt_of_firstPending (firstPending_of_lowest henabled hrequested hlowest)
  rw [hservice, takeInterrupt_eq]
  refine ⟨rfl, fun hlo hhi => ?_⟩
  rw [readWord_withRegs, readWord_memWriteWord_ram _ _ hlo hhi]

/-! The fault of an unmapped opcode (rules R85, R88, R181). -/

/-- A fetch of an unmapped opcode reads its byte and no more. -/
theorem fetch_unmapped {s : State} {a : Word} (h : readByte s a ∉ opcodeBytes s.params.opcodes) :
    fetch s a = .unmapped (readByte s a) a (afterRead s a) := by
  simp only [fetch, opcodeLength_none.mpr (opcodeRow_none.mpr h)]

theorem readByte_clearEvents (s : State) (a : Word) : readByte s.clearEvents a = readByte s a :=
  readByte_of_same_memory a rfl rfl rfl rfl rfl rfl (.inl rfl)

/-- A running step at an unmapped opcode raises the fault, after the one read of the fetch. -/
theorem step_unmapped {s : State} (hlatch : s.latch = none) (hdue : interruptDue s = false)
    (h : readByte s s.regs.pc ∉ opcodeBytes s.params.opcodes) :
    step s = raiseDecodeFault (readByte s s.regs.pc) s.regs.pc (afterRead s.clearEvents s.regs.pc) := by
  rw [← readByte_clearEvents] at h ⊢
  have hfetch := fetch_unmapped (s := s.clearEvents) h
  rw [step_of_running hlatch hdue, stepInstr, State.clearEvents_regs, hfetch]

/-- A state whose latch is set has no step (rule R22). -/
theorem step_of_latched {s : State} {f : FatalFault} (h : s.latch = some f) : step s = .fault (.halted f) := by
  rw [step, h]

theorem decodeAt_unmapped {s : State} {a : Word} (h : readByte s a ∉ opcodeBytes s.params.opcodes) :
    decodeAt s a = .error (.decodeFault (readByte s a) a) := by
  rw [decodeAt, fetch_unmapped h]

/-- No byte of the opcode map of rule R86 is in the list of rule R88. -/
theorem isUnmapped_of_mem_defaultOpcodes : ∀ op ∈ opcodeBytes defaultOpcodes, isUnmapped op = false := by decide

/-- Settles O27: the fetch stops at the opcode, whose read changes the count of free bytes alone; the fault sets the
latch, and a latched state has no step. -/
theorem unmappedOpcodeIsFatal : Obligations.UnmappedOpcodeIsFatal := by
  refine ⟨fun s hlatch hdue hunmapped => ?_, fun s a => decodeAt_unmapped, fun op hlisted hmapped => ?_⟩
  · refine ⟨_, step_unmapped hlatch hdue hunmapped, rfl, ?_, step_of_latched rfl⟩
    rw [afterRead_eq]
    rfl
  · rw [isUnmapped_of_mem_defaultOpcodes op hmapped] at hlisted
    cases hlisted

/-! The divider and the timer (rules R197, R198). -/

theorem timerTick_overflow {s : State} (h : s.io.tima = 0xFF#8) :
    timerTick s = requestInterrupt (s.setIo (s.io.set .tima s.io.tma)) .timer := if_pos h

theorem timerTick_count {s : State} (h : s.io.tima ≠ 0xFF#8) :
    timerTick s = s.setIo (s.io.set .tima (s.io.tima + 1#8)) := if_neg h

/-- Settles O52: the two timer clauses are the two branches of a tick, and bit 2 is the timer's. -/
theorem dividerAndTimerPrimitives : Obligations.DividerAndTimerPrimitives := by
  intro s
  exact ⟨rfl, timerTick_overflow, timerTick_count⟩

end Sys2Proof.Machine

/-! PROOFS. The opcode map, read both ways (30_encoding.md): each row is the encoding of the instructions it gives,
each instruction has a row, and the obligations about decoding and well-formedness. -/

namespace Sys2Proof

/-! The rows of the map. -/

/-- A row of the map gives instructions whose encoding is the row's byte followed by the operand bytes of its format
(rules R81, R86). -/
def RowEncodes (o : Opcodes) : Byte × Shape → Prop
  | (op, .f1 i)  => encode o i = [op]
  | (op, .f2 mk) => ∀ b, encode o (mk b) = [op, b]
  | (op, .f3 mk) => ∀ v, encode o (mk v) = op :: immediate16 v

theorem rowEncodes_of_mem {o : Opcodes} {op : Byte} {shape : Shape} (h : (op, shape) ∈ opcodeMap o) :
    RowEncodes o (op, shape) := by
  have hall : ∀ row ∈ opcodeMap o, RowEncodes o row := by
    simp [opcodeMap, opcodeRows0, opcodeRows2, opcodeRows7, RowEncodes, encode]
  exact hall _ h

/-- A format gives this instruction, for some operand. -/
def shapeGives : Shape → Instr → Prop
  | .f1 j, i  => i = j
  | .f2 mk, i => ∃ b, i = mk b
  | .f3 mk, i => ∃ v, i = mk v

theorem exists_row_of_getElem? {o : Opcodes} {i : Instr} {op : Byte} {shape : Shape} (k : Nat)
    (hrow : (opcodeMap o)[k]? = some (op, shape)) (hgives : shapeGives shape i) :
    ∃ op shape, (op, shape) ∈ opcodeMap o ∧ shapeGives shape i :=
  ⟨op, shape, List.mem_of_getElem? hrow, hgives⟩

/-- The map is complete: each of the 39 instructions has a row (rule R86). -/
theorem exists_row (o : Opcodes) : ∀ i : Instr, ∃ op shape, (op, shape) ∈ opcodeMap o ∧ shapeGives shape i
  | .nop => exists_row_of_getElem? 0 rfl rfl
  | .ldBCd16 v => exists_row_of_getElem? 1 rfl ⟨v, rfl⟩
  | .ldDEd16 v => exists_row_of_getElem? 7 rfl ⟨v, rfl⟩
  | .ldHLd16 v => exists_row_of_getElem? 14 rfl ⟨v, rfl⟩
  | .ldSPd16 v => exists_row_of_getElem? 19 rfl ⟨v, rfl⟩
  | .ldBd8 v => exists_row_of_getElem? 4 rfl ⟨v, rfl⟩
  | .ldCd8 v => exists_row_of_getElem? 6 rfl ⟨v, rfl⟩
  | .ldDd8 v => exists_row_of_getElem? 10 rfl ⟨v, rfl⟩
  | .ldEd8 v => exists_row_of_getElem? 12 rfl ⟨v, rfl⟩
  | .ldHd8 v => exists_row_of_getElem? 16 rfl ⟨v, rfl⟩
  | .ldLd8 v => exists_row_of_getElem? 18 rfl ⟨v, rfl⟩
  | .ldAd8 v => exists_row_of_getElem? 22 rfl ⟨v, rfl⟩
  | .stBCA => exists_row_of_getElem? 2 rfl rfl
  | .stDEA => exists_row_of_getElem? 8 rfl rfl
  | .stHLDecA => exists_row_of_getElem? 20 rfl rfl
  | .stHLB => exists_row_of_getElem? 23 rfl rfl
  | .stHLC => exists_row_of_getElem? 24 rfl rfl
  | .stHLD => exists_row_of_getElem? 25 rfl rfl
  | .stHLE => exists_row_of_getElem? 26 rfl rfl
  | .stHLH => exists_row_of_getElem? 27 rfl rfl
  | .stHLL => exists_row_of_getElem? 28 rfl rfl
  | .stHLA => exists_row_of_getElem? 29 rfl rfl
  | .decB => exists_row_of_getElem? 3 rfl rfl
  | .decC => exists_row_of_getElem? 5 rfl rfl
  | .decD => exists_row_of_getElem? 9 rfl rfl
  | .decE => exists_row_of_getElem? 11 rfl rfl
  | .decH => exists_row_of_getElem? 15 rfl rfl
  | .decL => exists_row_of_getElem? 17 rfl rfl
  | .decA => exists_row_of_getElem? 21 rfl rfl
  | .xorB => exists_row_of_getElem? 30 rfl rfl
  | .xorC => exists_row_of_getElem? 31 rfl rfl
  | .xorD => exists_row_of_getElem? 32 rfl rfl
  | .xorE => exists_row_of_getElem? 33 rfl rfl
  | .xorH => exists_row_of_getElem? 34 rfl rfl
  | .xorL => exists_row_of_getElem? 35 rfl rfl
  | .xorA => exists_row_of_getElem? 37 rfl rfl
  | .xorHL => exists_row_of_getElem? 36 rfl rfl
  | .jp v => exists_row_of_getElem? 38 rfl ⟨v, rfl⟩
  | .jrNZ v => exists_row_of_getElem? 13 rfl ⟨v, rfl⟩

/-! Decoding and encoding. -/

/-- Decoding undoes encoding, where each row is found under its byte. -/
theorem decode_encode {o : Opcodes} (hdistinct : (opcodeBytes o).Nodup) (i : Instr) (rest : List Byte) :
    decode o (encode o i ++ rest) = .ok (i, rest) := by
  obtain ⟨op, shape, hmem, hgives⟩ := exists_row o i
  have hfound := opcodeRow_of_mem hdistinct hmem
  have hrow := rowEncodes_of_mem hmem
  cases shape with
  | f1 j =>
    obtain rfl := hgives
    have hbytes : encode o i = [op] := hrow
    rw [hbytes]
    exact decode_f1 hfound rest
  | f2 mk =>
    obtain ⟨b, rfl⟩ := hgives
    have hbytes : encode o (mk b) = [op, b] := hrow b
    rw [hbytes]
    exact decode_f2 hfound b rest
  | f3 mk =>
    obtain ⟨v, rfl⟩ := hgives
    have hbytes : encode o (mk v) = [op, loByte v, hiByte v] := hrow v
    have hdecode := decode_f3 hfound (loByte v) (hiByte v) rest
    rw [Machine.joinBytes_hi_lo] at hdecode
    rw [hbytes]
    exact hdecode

/-- The immediate the decoder assembles has the bytes it was assembled from (rule R83). -/
theorem immediate16_joinBytes (lo hi : Byte) : immediate16 (joinBytes hi lo) = [lo, hi] := by
  rw [immediate16, Machine.loByte_joinBytes, Machine.hiByte_joinBytes]

/-- Encoding undoes decoding: the row that is found stands in the map. -/
theorem encode_of_decode {o : Opcodes} {op : Byte} {bs rest : List Byte} {i : Instr}
    (h : decode o (op :: bs) = .ok (i, rest)) : op :: bs = encode o i ++ rest := by
  cases hfound : opcodeRow o op with
  | none => rw [decode_unmapped hfound] at h; cases h
  | some shape =>
    have hrow : RowEncodes o (op, shape) := rowEncodes_of_mem (mem_of_lookup hfound)
    match shape, bs with
    | .f1 j, _ =>
      have hbytes : encode o j = [op] := hrow
      rw [decode_f1 hfound] at h
      cases h
      rw [hbytes]
      rfl
    | .f2 mk, b :: _ =>
      have hbytes : encode o (mk b) = [op, b] := hrow b
      rw [decode_f2 hfound] at h
      cases h
      rw [hbytes]
      rfl
    | .f3 mk, lo :: hi :: _ =>
      have hbytes : encode o (mk (joinBytes hi lo)) = op :: immediate16 (joinBytes hi lo) := hrow _
      rw [decode_f3 hfound] at h
      cases h
      rw [hbytes, immediate16_joinBytes]
      rfl
    | .f2 _, [] | .f3 _, [] | .f3 _, [_] => simp [decode, hfound] at h

/-- Settles O19: every instruction has a row of the map, which is found under its byte since the bytes are distinct. -/
theorem decodeOfEncodeIsIdentity : Obligations.DecodeOfEncodeIsIdentity := by
  intro o i rest hdistinct
  exact decode_encode hdistinct i rest

/-- Settles O20: the row the decoder used stands in the map, and encodes what it gives. -/
theorem decodedBytesAreTheEncoding : Obligations.DecodedBytesAreTheEncoding := by
  intro o bs i rest h
  cases bs with
  | nil => cases h
  | cons op bs => exact encode_of_decode h

/-! Well-formed forms. -/

/-! Each kind that names a register or a pair has an instruction for every one that fits (rules R82, R84). -/

theorem exists_load16 {p : Reg16} (v : Word) (h : p ≠ .af) :
    ∃ i : Instr, i.form = ⟨.load16, [.pair p, .imm16 v], 3⟩ := by
  cases p with
  | af => cases h rfl
  | bc => exact ⟨.ldBCd16 v, rfl⟩
  | de => exact ⟨.ldDEd16 v, rfl⟩
  | hl => exact ⟨.ldHLd16 v, rfl⟩
  | sp => exact ⟨.ldSPd16 v, rfl⟩

theorem exists_load8 {r : Reg8} (v : Byte) (h : r.encodable = true) :
    ∃ i : Instr, i.form = ⟨.load8, [.reg r, .imm8 v], 2⟩ := by
  cases r with
  | f => cases h
  | a => exact ⟨.ldAd8 v, rfl⟩
  | b => exact ⟨.ldBd8 v, rfl⟩
  | c => exact ⟨.ldCd8 v, rfl⟩
  | d => exact ⟨.ldDd8 v, rfl⟩
  | e => exact ⟨.ldEd8 v, rfl⟩
  | h => exact ⟨.ldHd8 v, rfl⟩
  | l => exact ⟨.ldLd8 v, rfl⟩

theorem exists_storeHL {r : Reg8} (h : r.encodable = true) :
    ∃ i : Instr, i.form = ⟨.store, [.pointer .hl, .reg r], 1⟩ := by
  cases r with
  | f => cases h
  | a => exact ⟨.stHLA, rfl⟩
  | b => exact ⟨.stHLB, rfl⟩
  | c => exact ⟨.stHLC, rfl⟩
  | d => exact ⟨.stHLD, rfl⟩
  | e => exact ⟨.stHLE, rfl⟩
  | h => exact ⟨.stHLH, rfl⟩
  | l => exact ⟨.stHLL, rfl⟩

theorem exists_store {p : Pointer} {r : Reg8} (h : storeAdmitted p r = true) :
    ∃ i : Instr, i.form = ⟨.store, [.pointer p, .reg r], 1⟩ := by
  cases p with
  | hl => exact exists_storeHL h
  | bc => obtain rfl := eq_of_beq h; exact ⟨.stBCA, rfl⟩
  | de => obtain rfl := eq_of_beq h; exact ⟨.stDEA, rfl⟩
  | hlDec => obtain rfl := eq_of_beq h; exact ⟨.stHLDecA, rfl⟩

theorem exists_dec8 {r : Reg8} (h : r.encodable = true) :
    ∃ i : Instr, i.form = ⟨.dec8, [.reg r], 1⟩ := by
  cases r with
  | f => cases h
  | a => exact ⟨.decA, rfl⟩
  | b => exact ⟨.decB, rfl⟩
  | c => exact ⟨.decC, rfl⟩
  | d => exact ⟨.decD, rfl⟩
  | e => exact ⟨.decE, rfl⟩
  | h => exact ⟨.decH, rfl⟩
  | l => exact ⟨.decL, rfl⟩

theorem exists_xor {r : Reg8} (h : r.encodable = true) :
    ∃ i : Instr, i.form = ⟨.xor, [.reg .a, .reg r], 1⟩ := by
  cases r with
  | f => cases h
  | a => exact ⟨.xorA, rfl⟩
  | b => exact ⟨.xorB, rfl⟩
  | c => exact ⟨.xorC, rfl⟩
  | d => exact ⟨.xorD, rfl⟩
  | e => exact ⟨.xorE, rfl⟩
  | h => exact ⟨.xorH, rfl⟩
  | l => exact ⟨.xorL, rfl⟩

/-- Operands that fit a kind are those of an instruction of that kind (rules R82, R84): the list has at most two, and
every other combination of their types is refused. -/
theorem exists_instr_of_operandsFit {kind : OpKind} {operands : List Operand} (h : operandsFit kind operands = true) :
    ∃ i : Instr, i.form = ⟨kind, operands, kind.length⟩ := by
  match operands with
  | [] =>
    cases kind
    case noop => exact ⟨.nop, rfl⟩
    all_goals cases h
  | [x] =>
    cases kind <;> cases x
    case dec8.reg r => exact exists_dec8 h
    case jump.imm16 v => exact ⟨.jp v, rfl⟩
    all_goals cases h
  | [x, y] =>
    cases kind <;> cases x <;> cases y
    case load16.pair.imm16 p v => exact exists_load16 v (bne_iff_ne.mp h)
    case load8.reg.imm8 r v => exact exists_load8 v h
    case store.pointer.reg p r => exact exists_store h
    case xor.reg.reg dst r =>
      obtain ⟨hdst, hr⟩ := Bool.and_eq_true_iff.mp h
      obtain rfl := eq_of_beq hdst
      exact exists_xor hr
    case xor.reg.pointer dst p =>
      obtain ⟨hdst, hp⟩ := Bool.and_eq_true_iff.mp h
      obtain rfl := eq_of_beq hdst
      obtain rfl := eq_of_beq hp
      exact ⟨.xorHL, rfl⟩
    case jumpRelative.cond.disp8 c e => cases c; exact ⟨.jrNZ e, rfl⟩
    all_goals cases h
  | x :: y :: z :: rest => cases kind <;> cases x <;> cases y <;> cases h

/-- Settles O24: fitting operands are those of an instruction, the length is the kind's, and every instruction is well
formed. -/
theorem wellFormedFormsAreTheInstructions : Obligations.WellFormedFormsAreTheInstructions := by
  intro f
  constructor
  · intro hwf
    obtain ⟨hfit, hlength⟩ := Bool.and_eq_true_iff.mp hwf
    obtain ⟨i, hi⟩ := exists_instr_of_operandsFit hfit
    refine ⟨i, hi.trans ?_⟩
    rw [← eq_of_beq hlength]
  · rintro ⟨i, rfl⟩
    obtain ⟨hwf, -⟩ := encodedForm_statement i
    exact hwf

/-! The map of rule R86 and the list of rule R88. -/

/-- Settles O21: under the bytes of rule R86 each word is its row's byte and operands, by computation. -/
theorem opcodeMapWordsDecode : Obligations.OpcodeMapWordsDecode := by
  have hld16 (lo hi : Byte) : decode defaultOpcodes [0x21#8, lo, hi] = .ok (.ldHLd16 (joinBytes hi lo), []) := rfl
  have hld8 (d8 : Byte) : decode defaultOpcodes [0x3E#8, d8] = .ok (.ldAd8 d8, []) := rfl
  exact ⟨rfl, hld16, hld8, rfl, rfl, rfl, rfl, rfl, rfl, rfl⟩

/-- A byte that is an opcode byte has a row, so its length is known (rules R86, R90). -/
theorem opcodeLength_of_mem {o : Opcodes} {op : Byte} (h : op ∈ opcodeBytes o) : ∃ n, opcodeLength o op = some n := by
  refine Option.ne_none_iff_exists'.mp fun hnone => ?_
  exact opcodeRow_none.mp (opcodeLength_none.mp hnone) h

/-- The list of rule R88 leaves out opcode bytes only. -/
theorem mem_defaultOpcodes_of_not_isUnmapped :
    ∀ op : Byte, Machine.isUnmapped op = false → op ∈ opcodeBytes defaultOpcodes := by
  decide

/-- Settles O22: a byte without a row is rejected by the decoder's first test; the list of rule R88 is compared with
the map of rule R86 byte by byte. -/
theorem unmappedBytesAreRejected : Obligations.UnmappedBytesAreRejected := by
  refine ⟨fun o _ => ⟨fun op rest hop => decode_unmapped (opcodeRow_none.mpr hop) rest,
    fun op hop => opcodeLength_of_mem hop, rfl⟩, fun op => ⟨fun hlisted hmapped => ?_, fun hunmapped => ?_⟩, by rfl⟩
  · rw [Machine.isUnmapped_of_mem_defaultOpcodes op hmapped] at hlisted
    cases hlisted
  · exact Bool.of_not_eq_false fun h => hunmapped (mem_defaultOpcodes_of_not_isUnmapped op h)

end Sys2Proof

/-! PROOFS. The step (70_reset_and_hazards.md section 3): what a fetch of given bytes leaves, which steps there are,
and the obligations about them. -/

namespace Sys2Proof.Machine

/-! The bytes of a fetch and the state its reads leave (rules R43, R70). -/

/-- The state a fetch leaves differs in the count of free bytes alone. -/
theorem Fetches.state_eq {s t : State} {bs : List Byte} (h : Fetches s bs t) :
    t = { s.clearEvents with oracle := t.oracle } := by
  obtain ⟨-, -, hread⟩ := h
  have hstate := readBytes_state s.clearEvents s.regs.pc bs.length
  rw [hread] at hstate
  exact hstate

/-- Away from the prohibited range the fetch uses up no free byte. -/
theorem Fetches.state_eq_of_readable {s t : State} {bs : List Byte} (h : Fetches s bs t)
    (hreadable : ∀ k < bs.length, region (s.regs.pc + BitVec.ofNat 16 k) ≠ .prohibited) : t = s.clearEvents := by
  obtain ⟨-, -, hread⟩ := h
  have hstate := readBytes_state_of_readable s.clearEvents s.regs.pc bs.length hreadable
  rw [hread] at hstate
  exact hstate

/-- A list whose bytes are those of consecutive addresses is what the reads of a fetch give. -/
theorem readBytes_eq_of_readByte {s : State} {a : Word} {bs : List Byte}
    (hreadable : ∀ k < bs.length, region (a + BitVec.ofNat 16 k) ≠ .prohibited)
    (hbytes : ∀ k (h : k < bs.length), readByte s (a + BitVec.ofNat 16 k) = bs[k]) :
    readBytes s a bs.length = (bs, s) := by
  refine Prod.ext ?_ (readBytes_state_of_readable s a bs.length hreadable)
  rw [readBytes_bytes_of_readable s a bs.length hreadable]
  refine List.ext_getElem (by simp) fun k _ hk => ?_
  rw [List.getElem_map, List.getElem_range]
  exact hbytes k hk

/-- Settles O25: the encoding decodes to its instruction, and the fetch reads as many bytes as its length. -/
theorem stepRunsDecodedInstruction : Obligations.StepRunsDecodedInstruction := by
  intro s t i hdistinct hfetches
  obtain ⟨-, hform⟩ := encodedForm_statement i
  obtain ⟨hlength, hopcode⟩ := hform s.params.opcodes
  obtain ⟨op, rest, hbytes, -⟩ := hopcode hdistinct
  have hdecode : decode s.params.opcodes (op :: rest) = .ok (i, []) := by
    have hroundtrip := decode_encode hdistinct i []
    rwa [List.append_nil, hbytes] at hroundtrip
  refine ⟨step_of_fetches (hbytes ▸ hfetches) hdecode, hfetches.state_eq, fun hreadable => ?_⟩
  exact hfetches.state_eq_of_readable (hlength.symm ▸ hreadable)

/-- Settles O26: the reads of the fetch are those of the address space, which past events do not change. -/
theorem fetchReadsWhatReadByteReads : Obligations.FetchReadsWhatReadByteReads := by
  intro s bs hlatch hdue hreadable hbytes
  exact ⟨hlatch, hdue, readBytes_eq_of_readByte hreadable fun k hk => (readByte_clearEvents s _).trans (hbytes k hk)⟩

/-- Settles O28: the latch is the first thing a step looks at. -/
theorem latchedStateHasNoStep : Obligations.LatchedStateHasNoStep :=
  fun _ _ h => step_of_latched h

/-- Settles O33: under the bytes of rule R86 each store opcode decodes to its store, by computation. -/
theorem storeOpcodesRunTheirStores : Obligations.StoreOpcodesRunTheirStores := by
  intro s t hdefault
  refine ⟨?_, ?_, ?_, ?_, ?_, ?_, ?_, ?_, ?_, ?_⟩ <;> exact step_of_fetches_default hdefault rfl

/-! Which step is taken (rules R191, R224). -/

theorem interruptDue_iff (s : State) : interruptDue s = true ↔ s.ime = true ∧ anyInterruptPending s = true :=
  Bool.and_eq_true_iff

/-- A running state with an interrupt due takes it, instead of an instruction (rule R191). -/
theorem step_of_due {s : State} (hlatch : s.latch = none) (hdue : interruptDue s = true) :
    step s = .next (serviceInterrupt s.clearEvents) := by
  simp [step, hlatch, hdue]

/-- Settles O48: the two clauses are the two branches of a running step. -/
theorem interruptTakenAtStepBoundary : Obligations.InterruptTakenAtStepBoundary := by
  intro s hlatch
  rw [← interruptDue_iff]
  exact ⟨step_of_due hlatch, fun hnot => step_of_running hlatch (Bool.eq_false_of_not_eq_true hnot)⟩

/-- No instruction stops the machine (rule R185). -/
theorem exec_goes_on (i : Instr) (s : State) : ∃ t, exec i s = .next t := by
  obtain ⟨g, w, h, -⟩ := exec_cases i s
  exact ⟨_, h⟩

/-- Settles O29: of the four cases of a step the latch excludes one, and of the others only the fetch of an unmapped
opcode does not go on. -/
theorem onlyUnmappedOpcodesStopTheMachine : Obligations.OnlyUnmappedOpcodesStopTheMachine := by
  intro s hlatch
  rcases step_cases s with ⟨f, hset, -⟩ | ⟨-, -, hstep⟩ | ⟨-, hdue, hop, hstep⟩ | ⟨-, -, n, i, -, -, hstep⟩
  · rw [hlatch] at hset
    cases hset
  · exact .inl ⟨_, hstep⟩
  · rw [readByte_clearEvents] at hop hstep
    exact .inr ⟨hdue, opcodeRow_none.mp (opcodeLength_none.mp hop), _, hstep⟩
  · obtain ⟨t, ht⟩ := exec_goes_on i (readBytes s.clearEvents s.regs.pc (n + 1)).2
    exact .inl ⟨t, hstep.trans ht⟩

end Sys2Proof.Machine

/-! PROOFS. The address space as a whole (20_memory.md sections 1 to 4): which writes fault, the registers of the I/O
window, what a byte write leaves alone, words, and the obligations about them. -/

namespace Sys2Proof.Machine

/-! Bytes and words (rules R5, R6). -/

theorem joinBytes_toNat (hi lo : Byte) : (joinBytes hi lo).toNat = hi.toNat * 256 + lo.toNat := by
  have hhi := hi.isLt
  have hlo := lo.isLt
  have hshift : (hi.setWidth 16 <<< 8).toNat = hi.toNat <<< 8 := by
    rw [BitVec.toNat_shiftLeft, BitVec.toNat_setWidth_of_le (by decide), Nat.mod_eq_of_lt]
    rw [Nat.shiftLeft_eq]
    omega
  rw [joinBytes, BitVec.toNat_or, hshift, BitVec.toNat_setWidth_of_le (by decide), ← Nat.shiftLeft_add_eq_or_of_lt hlo,
    Nat.shiftLeft_eq]

theorem hiByte_toNat (v : Word) : (hiByte v).toNat = v.toNat / 256 := by
  have hv := v.isLt
  rw [hiByte, BitVec.extractLsb'_toNat, Nat.shiftRight_eq_div_pow]
  omega

theorem loByte_toNat (v : Word) : (loByte v).toNat = v.toNat % 256 := by
  rw [loByte, BitVec.extractLsb'_toNat, Nat.shiftRight_zero]

theorem sext16_toNat (b : Byte) :
    (sext16 b).toNat = if b.toNat < 0x80 then b.toNat else 0xFF00 + b.toNat := by
  have hb := b.isLt
  have hsign : b.msb = decide (0x80 ≤ b.toNat) := BitVec.msb_eq_decide b
  rw [sext16, BitVec.toNat_signExtend, BitVec.toNat_setWidth_of_le (by decide), hsign]
  by_cases h : b.toNat < 0x80
  · simp [h]
  · have h' : 0x80 ≤ b.toNat := Nat.le_of_not_lt h
    simp [h, h']
    omega

/-- Settles O1: the bits of a word are those of its two bytes, and a negative byte is extended by ones. -/
theorem wordHelpersFollowNotation : Obligations.WordHelpersFollowNotation :=
  ⟨joinBytes_toNat, fun v => ⟨hiByte_toNat v, loByte_toNat v⟩, sext16_toNat⟩

/-! Regions (rule R41). -/

/-- The regions partition the address space: an address is of the one within whose bounds it lies. -/
theorem region_eq_iff (a : Word) (r : Region) :
    region a = r ↔ (regionBounds r).1 ≤ a.toNat ∧ a.toNat ≤ (regionBounds r).2 := by
  constructor
  · rintro rfl
    exact region_bounds a
  · rintro ⟨hlo, hhi⟩
    exact region_of_bounds hlo hhi

/-- Settles O7: each clause is `region_eq_iff` at its region; below the first and above the last there is no address. -/
theorem everyAddressHasItsRegion : Obligations.EveryAddressHasItsRegion := by
  intro a
  have hfixed : region a = .fixedRom ↔ a.toNat ≤ 0x3FFF :=
    (region_eq_iff a .fixedRom).trans (and_iff_right (Nat.zero_le _))
  have hie : region a = .ie ↔ a.toNat = 0xFFFF :=
    (region_eq_iff a .ie).trans ((and_comm).trans Nat.le_antisymm_iff.symm)
  exact ⟨hfixed, region_eq_iff a .switchRom, region_eq_iff a .vram, region_eq_iff a .eram, region_eq_iff a .wram0,
    region_eq_iff a .wram1, region_eq_iff a .unbacked, region_eq_iff a .oam, region_eq_iff a .prohibited,
    region_eq_iff a .io, region_eq_iff a .hram, hie⟩

/-! Which writes fault (rules R49, R54, R183). -/

theorem region_unbacked_iff (a : Word) : region a = .unbacked ↔ 0xE000 ≤ a.toNat ∧ a.toNat ≤ 0xFDFF :=
  region_eq_iff a .unbacked

theorem writeByte_unbacked (s : State) {a : Word} (v : Byte) (h : region a = .unbacked) :
    writeByte s a v = .error ⟨a⟩ := by
  unfold writeByte
  rw [h]

/-- Where there is a handler the write succeeds, with the state `memWrite` gives. -/
theorem writeByte_backed (s : State) {a : Word} (v : Byte) (h : region a ≠ .unbacked) :
    writeByte s a v = .ok (memWrite s a v) := by
  unfold memWrite writeByte
  cases hr : region a
  case unbacked => exact absurd hr h
  all_goals rfl

theorem memWrite_of_error {s : State} {a : Word} {v : Byte} {e : MemoryFault} (h : writeByte s a v = .error e) :
    memWrite s a v = s.emit e := by
  rw [memWrite, h]

/-- Settles O12: the range is one region, the only one without a handler, and an event is added there alone. -/
theorem writeFaultsExactlyWhereUnbacked : Obligations.WriteFaultsExactlyWhereUnbacked := by
  intro s a v
  rw [← region_unbacked_iff]
  refine ⟨fun h => ?_, fun h => ?_⟩
  · have hfault := writeByte_unbacked s v h
    exact ⟨hfault, memWrite_of_error hfault⟩
  · refine ⟨memWrite s a v, writeByte_backed s v h, rfl, ?_⟩
    rw [memWrite_events, if_neg h, List.append_nil]

/-! The I/O window (rules R25, R31, R32, R56). -/

theorem writeIo_named {s : State} {a : Word} {r : IoReg} (v : Byte) (h : ioRegAt s.params.addr a = some r) :
    writeIo s a v = s.setIo (writeIoReg s.io r v) := by
  rw [writeIo, h]

theorem writeIo_audio {s : State} {a : Word} (v : Byte) (hnone : ioRegAt s.params.addr a = none)
    (haudio : isAudio s.params.addr a = true) : writeIo s a v = s.setIo (writeAudio s.io a v) := by
  rw [writeIo, hnone]
  exact if_pos haudio

theorem writeIo_unmapped {s : State} {a : Word} (v : Byte) (hnone : ioRegAt s.params.addr a = none)
    (haudio : isAudio s.params.addr a = false) : writeIo s a v = s := by
  rw [writeIo, hnone, haudio]
  rfl

theorem readIo_named {s : State} {a : Word} {r : IoReg} (h : ioRegAt s.params.addr a = some r) :
    readIo s a = s.io.get r := by
  rw [readIo, h]

theorem readIo_audio {s : State} {a : Word} (hnone : ioRegAt s.params.addr a = none)
    (haudio : isAudio s.params.addr a = true) : readIo s a = audioAt s.io a := by
  rw [readIo, hnone]
  exact if_pos haudio

theorem readIo_unmapped {s : State} {a : Word} (hnone : ioRegAt s.params.addr a = none)
    (haudio : isAudio s.params.addr a = false) : readIo s a = s.params.unmappedReadValue := by
  rw [readIo, hnone, haudio]
  rfl

/-- A write at a register's own address is a CPU write of that register, where the addresses are legal. -/
theorem writeByte_ioAddr {s : State} (hlegal : ParamsLegal s.params) (r : IoReg) (v : Byte) :
    writeByte s (ioAddr s.params.addr r) v = .ok (s.setIo (writeIoReg s.io r v)) := by
  rw [writeByte_io v (hlegal.addrInWindow r), writeIo_named v (ioRegAt_ioAddr hlegal r)]

theorem readByte_ioAddr {s : State} (hlegal : ParamsLegal s.params) (r : IoReg) :
    readByte s (ioAddr s.params.addr r) = s.io.get r := by
  rw [readByte_io (hlegal.addrInWindow r), readIo_named (ioRegAt_ioAddr hlegal r)]

theorem readByte_audio {s : State} {a : Word} (hlegal : ParamsLegal s.params)
    (haudio : isAudio s.params.addr a = true) : readByte s a = audioAt s.io a := by
  rw [readByte_io (isAudio_region hlegal haudio), readIo_audio (isAudio_ioRegAt hlegal haudio) haudio]

theorem audioAt_writeAudio_same (x : Io) (a : Word) (v : Byte) : audioAt (writeAudio x a v) a = v := by
  simp [audioAt, writeAudio, Memory.read_write_same]

theorem audioAt_writeAudio_other (x : Io) {a b : Word} (v : Byte) (h : b ≠ a) :
    audioAt (writeAudio x a v) b = audioAt x b := by
  have hkey : b.toNat ≠ a.toNat := fun hkey => h (BitVec.eq_of_toNat_eq hkey)
  simp [audioAt, writeAudio, Memory.read_write_other _ _ v hkey]

theorem writeAudio_get (x : Io) (a : Word) (v : Byte) (r : IoReg) : (writeAudio x a v).get r = x.get r := by
  cases r <;> rfl

/-- Two register files that agree at an address, and where it is audio in that cell, read alike there. -/
theorem readIo_setIo {s : State} {x : Io} {b : Word}
    (hnamed : ∀ r, ioRegAt s.params.addr b = some r → x.get r = s.io.get r) (haudio : audioAt x b = audioAt s.io b) :
    readIo (s.setIo x) b = readIo s b := by
  unfold readIo
  cases hr : ioRegAt s.params.addr b with
  | some r => simpa [hr] using hnamed r hr
  | none => simp [hr, haudio]

/-- A CPU write of one register is seen at no other address of the window. -/
theorem readIo_writeIoReg_other {s : State} {a b : Word} {r : IoReg} (v : Byte) (hr : ioRegAt s.params.addr a = some r)
    (h : b ≠ a) : readIo (s.setIo (writeIoReg s.io r v)) b = readIo s b := by
  refine readIo_setIo (fun q hq => writeIoReg_other s.io v ?_) (by simp [audioAt])
  rintro rfl
  exact h ((ioAddr_of_ioRegAt hq).symm.trans (ioAddr_of_ioRegAt hr))

theorem readIo_writeAudio_other {s : State} {a b : Word} (v : Byte) (h : b ≠ a) :
    readIo (s.setIo (writeAudio s.io a v)) b = readIo s b :=
  readIo_setIo (fun r _ => writeAudio_get s.io a v r) (audioAt_writeAudio_other s.io v h)

/-! What a byte write leaves alone (rule R62). -/

/-- The fixed bank reads alike while the overlay does, and above the overlay in any case (rule R44). -/
theorem readFixedRom_setIo {s : State} {x : Io} {b : Word} (h : x.bootOff = s.io.bootOff ∨ ¬ b.toNat ≤ 0x00FF) :
    readFixedRom (s.setIo x) b = readFixedRom s b := by
  rw [readFixedRom_eq, readFixedRom_eq]
  rcases h with h | h
  · rw [State.setIo_io, h]
    rfl
  · simp only [h, false_and, if_false]
    rfl

/-- A change of the registers alone is seen only through the overlay, in the I/O window and at IE. -/
theorem readByte_setIo {s : State} {x : Io} {b : Word} (hboot : x.bootOff = s.io.bootOff ∨ ¬ b.toNat ≤ 0x00FF)
    (hio : readIo (s.setIo x) b = readIo s b) (hie : x.ie = s.io.ie ∨ region b ≠ .ie) :
    readByte (s.setIo x) b = readByte s b :=
  readByte_congr rfl rfl (fun _ => readFixedRom_setIo hboot) (fun _ => rfl) (fun _ => hio) hie (.inl rfl)

/-- A CPU write of one register is seen at its own address, and below 0x0100 if it moves the overlay. -/
theorem readByte_writeIoReg_other {s : State} {a b : Word} {r : IoReg} (v : Byte)
    (hr : ioRegAt s.params.addr a = some r) (hne : b ≠ a) (hview : ¬ movesView s.params.addr a b) :
    readByte (s.setIo (writeIoReg s.io r v)) b = readByte s b := by
  refine readByte_setIo ?_ (readIo_writeIoReg_other v hr hne) (.inl (writeIoReg_ie s.io r v))
  by_cases hboot : r = .bootOff
  · subst hboot
    exact .inr fun hlow => hview (.inl ⟨(ioAddr_of_ioRegAt hr).symm, hlow⟩)
  · exact .inl (writeIoReg_other s.io (q := .bootOff) v (Ne.symm hboot))

theorem readByte_writeAudio_other {s : State} {a b : Word} (v : Byte) (h : b ≠ a) :
    readByte (s.setIo (writeAudio s.io a v)) b = readByte s b :=
  readByte_setIo (.inl rfl) (readIo_writeAudio_other v h) (.inl rfl)

/-- A byte write is seen at no other address, unless it moves the view (rule R62). -/
theorem readByte_memWrite_other {s : State} {a b : Word} (v : Byte) (hne : b ≠ a)
    (hview : ¬ movesView s.params.addr a b) : readByte (memWrite s a v) b = readByte s b := by
  rcases memWrite_cases s a v with ⟨_, e⟩ | ⟨_, e⟩ | ⟨hr, _, e⟩ | ⟨_, e⟩ | ⟨r, _, hr, e⟩ | ⟨_, _, _, e⟩ | ⟨hr, e⟩ <;>
    rw [e]
  · exact readByte_of_same_memory b rfl rfl rfl rfl rfl rfl (.inl rfl)
  · exact readByte_congr rfl rfl (fun _ => rfl) (fun hb => absurd (.inr ⟨hr, hb⟩) hview) (fun _ => rfl) (.inl rfl)
      (.inl rfl)
  · exact readByte_writeRam_other s v hne
  · exact readByte_writeIoReg_other v hr hne hview
  · exact readByte_writeAudio_other v hne
  · refine readByte_setIo (.inl rfl) (readIo_setIo (fun q _ => by cases q <;> rfl) rfl) (.inr fun hb => hne ?_)
    have ha := (region_eq_iff a .ie).mp hr
    have hb := (region_eq_iff b .ie).mp hb
    simp only [regionBounds] at ha hb
    exact BitVec.eq_of_toNat_eq (by omega)

/-- Settles O17: the frame lemmas of a byte write, and what another address reads after it. -/
theorem byteWriteLeavesTheRestAlone : Obligations.ByteWriteLeavesTheRestAlone := by
  intro s a v
  exact ⟨memWrite_params s a v, memWrite_regs s a v, memWrite_ime s a v, memWrite_latch s a v, memWrite_cart s a v,
    memWrite_boot s a v, fun b hne hview => readByte_memWrite_other v hne hview⟩

/-- Settles O15: each register's write is its case of `writeIoReg` at its own address; an audio cell reads back and no
other address sees it; where there is no register nothing is stored. -/
theorem ioWindowWrites : Obligations.IoWindowWrites := by
  intro s v hlegal
  refine ⟨writeByte_ioAddr hlegal .div v, writeByte_ioAddr hlegal .stat v, writeByte_ioAddr hlegal .ly v,
    fun r hdiv hstat hly => ?_, fun a haudio => ?_, fun a hwindow hunnamed hunaudio => ?_⟩
  · refine ⟨_, writeByte_ioAddr hlegal r v, rfl, ?_, fun q hq => writeIoReg_other s.io v hq, writeIoReg_audio s.io r v,
      writeIoReg_ie s.io r v⟩
    rw [State.setIo_io, writeIoReg_plain s.io v hdiv hstat hly, Io.get_set_same]
  · have hregion := isAudio_region hlegal haudio
    have hnone := isAudio_ioRegAt hlegal haudio
    refine ⟨s.setIo (writeAudio s.io a v), ?_, rfl, ?_, fun b hne => readByte_writeAudio_other v hne⟩
    · rw [writeByte_io v hregion, writeIo_audio v hnone haudio]
    · exact (readByte_audio (s := s.setIo (writeAudio s.io a v)) hlegal haudio).trans (audioAt_writeAudio_same s.io a v)
  · rw [writeByte_io v hwindow, writeIo_unmapped v (ioRegAt_none hunnamed) hunaudio]

/-! Words on plain storage (rules R58, R59). -/

/-- A write to plain storage moves no view below it: it selects no bank, and BOOT_OFF lies above the overlay. -/
theorem not_movesView_pred {p : Params} (hlegal : ParamsLegal p) {a : Word}
    (hplain : plainStorage p.addr (a + 1#16) = true) : ¬ movesView p.addr (a + 1#16) a := by
  rintro (⟨hboot, hlow⟩ | ⟨hswitch, -⟩)
  · have hwindow := region_bounds p.addr.bootOff
    rw [show region p.addr.bootOff = .io from hlegal.addrInWindow .bootOff, ← hboot] at hwindow
    simp only [regionBounds] at hwindow
    bv_omega
  · simp [plainStorage, hswitch, isRamRegion] at hplain

/-- Settles O18: the high byte is written last and reads back; the low byte does, since the second write is at another
address and moves no view. -/
theorem wordAccessIsTwoByteAccesses : Obligations.WordAccessIsTwoByteAccesses := by
  intro s a v
  refine ⟨rfl, rfl, fun hlegal hlo hhi => ?_⟩
  have hne : a ≠ a + 1#16 := by bv_omega
  have hview := not_movesView_pred hlegal hhi
  rw [← memWrite_params s a (loByte v)] at hhi hview
  rw [readWord, memWriteWord, readByte_memWrite_plain _ _ hhi, readByte_memWrite_other _ hne hview,
    readByte_memWrite_plain _ _ hlo, joinBytes_hi_lo]

/-! Reads of registers and where nothing is stored (rules R25, R47, R48), the defaults (rule R4), reset (rule R34). -/

theorem readByte_unbacked {s : State} {a : Word} (h : region a = .unbacked) :
    readByte s a = s.params.unmappedReadValue := by
  unfold readByte
  rw [h]

/-- Each register is found at its default address, so no two have the same one. -/
theorem ioRegAt_default (r : IoReg) : ioRegAt defaultAddresses (ioAddr defaultAddresses r) = some r := by
  cases r <;> rfl

/-- The defaults are parameters the spec admits. -/
theorem defaultParams_legal : ParamsLegal defaultParams where
  addrInWindow r := by cases r <;> rfl
  addrDistinct r q h := by
    have hfound := ioRegAt_default r
    rw [show ioAddr defaultAddresses r = ioAddr defaultAddresses q from h, ioRegAt_default q] at hfound
    exact (Option.some.inj hfound).symm
  audioInWindow := by decide
  audioApart r := by cases r <;> rfl
  periodPos := by decide
  titleInImage := by decide
  typeInImage := by decide
  typesDistinct := by decide
  opcodesDistinct := by decide

/-- Settles O11: each address is of the region that answers so; under the defaults a register's address is the one
written out, by computation. -/
theorem readRegistersAndUnbackedAddresses : Obligations.ReadRegistersAndUnbackedAddresses := by
  refine ⟨fun s a => ⟨fun hlo hhi => ?_, fun hwindow hunnamed hunaudio => ?_, readByte_ie region_ie,
    fun hlegal r => readByte_ioAddr hlegal r⟩, rfl, defaultParams_legal, fun s hdefault => ?_⟩
  · exact readByte_unbacked ((region_unbacked_iff a).mpr ⟨hlo, hhi⟩)
  · rw [readByte_io hwindow, readIo_unmapped (ioRegAt_none hunnamed) hunaudio]
  · have hread (r : IoReg) : readByte s (ioAddr defaultAddresses r) = s.io.get r := by
      have hreg := readByte_ioAddr (s := s) (hdefault ▸ defaultParams_legal) r
      rwa [hdefault] at hreg
    exact ⟨hread .joyp, hread .sb, hread .sc, hread .div, hread .tima, hread .tma, hread .tac, hread .intf, hread .lcdc,
      hread .stat, hread .scy, hread .scx, hread .ly, hread .lyc, hread .bgp, hread .obp0, hread .obp1, hread .bootOff⟩

theorem resetIo_get (r : IoReg) : resetIo.get r = 0x00#8 := by
  cases r <;> rfl

/-- Settles O3: the fields are those `State.resetWith` writes out; an audio cell is unlisted, and so holds 0x00. -/
theorem resetHiddenStateAndControlRegisters : Obligations.ResetHiddenStateAndControlRegisters := by
  refine ⟨fun p cart boot => ⟨rfl, rfl, rfl, rfl, resetIo_get, fun hlegal a haudio => ?_, rfl, rfl, rfl, rfl⟩, rfl, rfl⟩
  exact readByte_audio (s := State.resetWith p cart boot) hlegal haudio

end Sys2Proof.Machine

/-! PROOFS. The whole instruction set (rules R14, R16, R17, R63): what an instruction of each form leaves in the
Register File, what any instruction leaves elsewhere, and the obligations over all instructions. -/

namespace Sys2Proof.Machine

/-! The Register File after an instruction, by its form. -/

/-- The Register File that an instruction of a form leaves, in a state `s`. -/
inductive RegsAfter (s : State) : Form → Regs → Prop
  | load16 {p : Reg16} (v : Word) (h : p ≠ .af) :
      RegsAfter s ⟨.load16, [.pair p, .imm16 v], 3⟩ { s.regs.set16 p v with pc := s.regs.pc + 3#16 }
  | load8 {r : Reg8} (v : Byte) (h : r ≠ .f) :
      RegsAfter s ⟨.load8, [.reg r, .imm8 v], 2⟩ { s.regs.set8 r v with pc := s.regs.pc + 2#16 }
  | store (p : Pointer) (r : Reg8) :
      RegsAfter s ⟨.store, [.pointer p, .reg r], 1⟩ { (afterPointer s p).regs with pc := s.regs.pc + 1#16 }
  | dec8 {r : Reg8} (h : r ≠ .f) :
      RegsAfter s ⟨.dec8, [.reg r], 1⟩
        { s.regs.set8 r (s.get8 r - 1#8) with f := flagsAfterDec (s.get8 r) s.regs.f, pc := s.regs.pc + 1#16 }
  | xor (source : Operand) (v : Byte) : RegsAfter s ⟨.xor, [.reg .a, source], 1⟩ (regsAfterXor s.regs v)
  | jump (v : Word) : RegsAfter s ⟨.jump, [.imm16 v], 3⟩ { s.regs with pc := v }
  | jumpRelative (e : Byte) :
      RegsAfter s ⟨.jumpRelative, [.cond .nz, .disp8 e], 2⟩
        { s.regs with pc := if s.regs.f.z then s.regs.pc + 2#16 else s.regs.pc + 2#16 + sext16 e }
  | noop : RegsAfter s ⟨.noop, [], 1⟩ { s.regs with pc := s.regs.pc + 1#16 }

/-- A store is one byte write, the pointer's own update and the advance (rule R120). -/
theorem storeThrough_next (p : Pointer) (r : Reg8) (s : State) :
    storeThrough p r s =
      .next { memWrite s (pointerAddress s p) (s.get8 r) with
        regs := { (afterPointer s p).regs with pc := s.regs.pc + 1#16 } } := by
  by_cases hp : p = .hlDec
  · subst hp
    exact storeThrough_hlDec r s
  · rw [storeThrough_eq hp, afterPointer_of_ne_hlDec s hp]

/-- A relative jump sets PC alone (rule R171). -/
theorem exec_jrNZ (e : Byte) (s : State) :
    exec (.jrNZ e) s =
      .next { s with
        regs := { s.regs with pc := if s.regs.f.z then s.regs.pc + 2#16 else s.regs.pc + 2#16 + sext16 e } } := by
  cases hz : s.regs.f.z with
  | true => exact jumpRelative_notTaken e (by rw [condHolds_nz, hz]; rfl)
  | false => exact jumpRelative_taken e (by rw [condHolds_nz, hz]; rfl)

/-- Every instruction leaves the Register File its form says. -/
theorem regsAfter_of_exec {i : Instr} {s t : State} (h : exec i s = .next t) : RegsAfter s i.form t.regs := by
  have hstore {p : Pointer} {r : Reg8} (hp : storeThrough p r s = .next t) :
      RegsAfter s ⟨.store, [.pointer p, .reg r], 1⟩ t.regs := by
    rw [storeThrough_next] at hp
    cases hp
    exact .store p r
  have hdec {r : Reg8} (hr : r ≠ .f) (hp : decrement r s = .next t) : RegsAfter s ⟨.dec8, [.reg r], 1⟩ t.regs := by
    rw [decrement_eq] at hp
    cases hp
    exact .dec8 hr
  have hxor {source : Operand} {v : Byte} (hp : xorWith v s = .next t) :
      RegsAfter s ⟨.xor, [.reg .a, source], 1⟩ t.regs := by
    rw [xorWith_eq] at hp
    cases hp
    exact .xor source v
  cases i
  case nop => cases h; exact .noop
  case jp v => cases h; exact .jump v
  case jrNZ e => rw [exec_jrNZ] at h; cases h; exact .jumpRelative e
  case ldBCd16 v | ldDEd16 v | ldHLd16 v | ldSPd16 v => cases h; exact .load16 v (by decide)
  case ldBd8 v | ldCd8 v | ldDd8 v | ldEd8 v | ldHd8 v | ldLd8 v | ldAd8 v => cases h; exact .load8 v (by decide)
  case stBCA | stDEA | stHLDecA | stHLB | stHLC | stHLD | stHLE | stHLH | stHLL | stHLA => exact hstore h
  case decB | decC | decD | decE | decH | decL | decA => exact hdec (by decide) h
  case xorB | xorC | xorD | xorE | xorH | xorL | xorA => exact hxor h
  case xorHL => rw [exec_xorHL] at h; cases h; exact .xor _ _

/-! PC (rule R14). -/

theorem RegsAfter.pc_eq {s : State} {f : Form} {g : Regs} (h : RegsAfter s f g) (hjump : f.kind ≠ .jump)
    (hrelative : f.kind ≠ .jumpRelative) : g.pc = s.regs.pc + BitVec.ofNat 16 f.length := by
  cases h
  case jump => exact absurd rfl hjump
  case jumpRelative => exact absurd rfl hrelative
  all_goals rfl

/-- Settles O43: a form that is no jump is followed by the address its length further on; the jumps have their own
next states. -/
theorem programCounterAfterInstruction : Obligations.ProgramCounterAfterInstruction := by
  intro i s t h
  refine ⟨(regsAfter_of_exec h).pc_eq, ?_, ?_⟩
  · rintro a rfl
    cases h
    rfl
  · rintro e rfl
    rw [exec_jrNZ] at h
    cases h
    rfl

/-! Flags (rule R16). -/

theorem afterPointer_f (s : State) (p : Pointer) : (afterPointer s p).regs.f = s.regs.f := by
  cases p <;> rfl

theorem RegsAfter.f_eq {s : State} {f : Form} {g : Regs} (h : RegsAfter s f g) (hdec : f.kind ≠ .dec8)
    (hxor : f.kind ≠ .xor) : g.f = s.regs.f := by
  cases h
  case load16 v hp => exact Regs.set16_f v hp
  case load8 v hr => exact Regs.set8_f v hr
  case store p r => exact afterPointer_f s p
  case dec8 => exact absurd rfl hdec
  case xor => exact absurd rfl hxor
  all_goals rfl

/-- PC and the flags play no part in the other registers. -/
theorem Regs.get8_withFlagsPc {g : Regs} {r : Reg8} (f : Flags) (pc : Word) (h : r ≠ .f) :
    Regs.get8 { g with f := f, pc := pc } r = g.get8 r := by
  cases r
  case f => exact absurd rfl h
  all_goals rfl

/-- A decrement takes one from the register its form names, and sets the flags by its old value (rule R140). -/
theorem RegsAfter.of_dec8 {s : State} {f : Form} {g : Regs} (h : RegsAfter s f g) (hdec : f.kind = .dec8) :
    ∃ r, f.operands = [.reg r] ∧ g.get8 r = s.get8 r - 1#8 ∧ g.f = flagsAfterDec (s.get8 r) s.regs.f := by
  cases h
  case dec8 r hr => exact ⟨r, rfl, (Regs.get8_withFlagsPc _ _ hr).trans (Regs.get8_set8_same _ hr), rfl⟩
  all_goals cases hdec

/-- An exclusive-or sets Z by the new value of A and clears the other flags (rule R150). -/
theorem RegsAfter.f_of_xor {s : State} {f : Form} {g : Regs} (h : RegsAfter s f g) (hxor : f.kind = .xor) :
    g.f = ⟨g.a == 0x00#8, false, false, false⟩ := by
  cases h
  case xor source v => exact (xorFlags_xor s.regs.a v).symm
  all_goals cases hxor

theorem serviceInterrupt_f (s : State) : (serviceInterrupt s).regs.f = s.regs.f := by
  cases hfirst : firstPending s with
  | none => rw [serviceInterrupt, hfirst]
  | some n => rw [serviceInterrupt_of_firstPending hfirst, takeInterrupt_regs]

/-- Settles O44: the flags of the Register File each form leaves; a decrement gives zero exactly where the old value
was 1. -/
theorem onlyDecAndXorWriteFlags : Obligations.OnlyDecAndXorWriteFlags := by
  refine ⟨fun i s t h => ?_, serviceInterrupt_f⟩
  have hregs := regsAfter_of_exec h
  refine ⟨hregs.f_eq, fun hdec => ?_, hregs.f_of_xor⟩
  obtain ⟨r, hoperands, hnew, hflags⟩ := hregs.of_dec8 hdec
  have hzero : t.get8 r = 0x00#8 ↔ s.get8 r = 0x01#8 := by
    rw [State.get8, hnew]
    exact sub_eq_zero
  rw [hflags]
  exact ⟨r, hoperands, (decide_eq_decide.mpr hzero).symm, rfl, rfl, rfl, rfl⟩

/-! Destinations (rule R17). -/

/-- The 8-bit registers that make up a pair (rule R11). -/
def pairHalves : Reg16 → List Reg8
  | .af => [.a, .f]
  | .bc => [.b, .c]
  | .de => [.d, .e]
  | .hl => [.h, .l]
  | .sp => []

/-- The 8-bit registers a form writes: those it names as its destination, HL through (HL-), and the flags. -/
def destinations : Form → List Reg8
  | ⟨.load16, [.pair p, .imm16 _], _⟩ => pairHalves p
  | ⟨.load8, [.reg r, .imm8 _], _⟩ => [r]
  | ⟨.store, [.pointer .hlDec, .reg _], _⟩ => [.h, .l]
  | ⟨.dec8, [.reg r], _⟩ => [r, .f]
  | ⟨.xor, _, _⟩ => [.a, .f]
  | _ => []

theorem Regs.get8_set16_other {g : Regs} {p : Reg16} {r : Reg8} (v : Word) (h : r ∉ pairHalves p) :
    (g.set16 p v).get8 r = g.get8 r := by
  have hhalves {hi lo : Reg8} (x y : Byte) (hne : r ∉ [hi, lo]) : ((g.set8 hi x).set8 lo y).get8 r = g.get8 r := by
    obtain ⟨hhi, hlo⟩ : r ≠ hi ∧ r ≠ lo := by simpa using hne
    rw [Regs.get8_set8_other y hlo, Regs.get8_set8_other x hhi]
  cases p
  case sp => cases r <;> rfl
  all_goals exact hhalves _ _ h

theorem Regs.get8_withPc (g : Regs) (r : Reg8) (pc : Word) : Regs.get8 { g with pc := pc } r = g.get8 r := by
  cases r <;> rfl

/-- A form leaves every register that is not among its destinations. -/
theorem RegsAfter.get8_eq {s : State} {f : Form} {g : Regs} {r : Reg8} (h : RegsAfter s f g)
    (hr : r ∉ destinations f) : g.get8 r = s.regs.get8 r := by
  cases h
  case load16 p v hp => rw [Regs.get8_withPc, Regs.get8_set16_other v hr]
  case load8 q v hq =>
    have hne : r ≠ q := List.ne_of_not_mem_cons hr
    rw [Regs.get8_withPc, Regs.get8_set8_other v hne]
  case store p q =>
    rw [Regs.get8_withPc]
    cases p
    case hlDec => exact Regs.get8_set16_other (p := .hl) _ hr
    all_goals rfl
  case dec8 q hq =>
    obtain ⟨hne, hf⟩ : r ≠ q ∧ r ≠ .f := by simpa [destinations] using hr
    rw [Regs.get8_withFlagsPc _ _ hf, Regs.get8_set8_other _ hne]
  case xor source v =>
    obtain ⟨ha, hf⟩ : r ≠ .a ∧ r ≠ .f := by simpa [destinations] using hr
    cases r
    case a => exact absurd rfl ha
    case f => exact absurd rfl hf
    all_goals rfl
  all_goals exact Regs.get8_withPc _ _ _

/-- An 8-bit register that an instruction changes is one of its destinations. -/
theorem mem_destinations_of_changed {i : Instr} {s t : State} (h : exec i s = .next t) (r : Reg8)
    (hchanged : t.regs.get8 r ≠ s.regs.get8 r) : r ∈ destinations i.form :=
  by_contra fun hr => hchanged ((regsAfter_of_exec h).get8_eq hr)

/-- Which instructions have a register among their destinations: the rows of the table of rule R17. -/
theorem exists_of_mem_destinations (i : Instr) :
    (.a ∈ destinations i.form → (∃ v, i = .ldAd8 v) ∨ i = .decA ∨ i.kind = .xor) ∧
    (.b ∈ destinations i.form → (∃ v, i = .ldBd8 v) ∨ i = .decB ∨ ∃ v, i = .ldBCd16 v) ∧
    (.c ∈ destinations i.form → (∃ v, i = .ldCd8 v) ∨ i = .decC ∨ ∃ v, i = .ldBCd16 v) ∧
    (.d ∈ destinations i.form → (∃ v, i = .ldDd8 v) ∨ i = .decD ∨ ∃ v, i = .ldDEd16 v) ∧
    (.e ∈ destinations i.form → (∃ v, i = .ldEd8 v) ∨ i = .decE ∨ ∃ v, i = .ldDEd16 v) ∧
    (.h ∈ destinations i.form → (∃ v, i = .ldHd8 v) ∨ i = .decH ∨ i = .stHLDecA ∨ ∃ v, i = .ldHLd16 v) ∧
    (.l ∈ destinations i.form → (∃ v, i = .ldLd8 v) ∨ i = .decL ∨ i = .stHLDecA ∨ ∃ v, i = .ldHLd16 v) := by
  cases i <;> simp [Instr.form, Instr.kind, destinations, pairHalves]

theorem afterPointer_sp (s : State) (p : Pointer) : (afterPointer s p).regs.sp = s.regs.sp := by
  cases p <;> rfl

/-- Only a load of SP changes SP. -/
theorem RegsAfter.sp_changed {s : State} {f : Form} {g : Regs} (h : RegsAfter s f g) (hchanged : g.sp ≠ s.regs.sp) :
    ∃ v, f = ⟨.load16, [.pair .sp, .imm16 v], 3⟩ := by
  cases h
  case load16 p v hp =>
    cases p
    case sp => exact ⟨v, rfl⟩
    all_goals exact absurd rfl hchanged
  case load8 r v hr => exact absurd (Regs.set8_sp s.regs r v) hchanged
  case store p r => exact absurd (afterPointer_sp s p) hchanged
  case dec8 r hr => exact absurd (Regs.set8_sp s.regs r _) hchanged
  all_goals exact absurd rfl hchanged

theorem eq_ldSPd16_of_form {i : Instr} {v : Word} (h : i.form = ⟨.load16, [.pair .sp, .imm16 v], 3⟩) :
    i = .ldSPd16 v := by
  cases i <;> cases h
  rfl

/-- Settles O45: a register that changes is a destination, and the table says whose. -/
theorem registersChangeOnlyAsDestinations : Obligations.RegistersChangeOnlyAsDestinations := by
  intro i s t h
  have hmem := mem_destinations_of_changed h
  obtain ⟨ha, hb, hc, hd, he, hh, hl⟩ := exists_of_mem_destinations i
  refine ⟨fun hne => ha (hmem .a hne), fun hne => hb (hmem .b hne), fun hne => hc (hmem .c hne),
    fun hne => hd (hmem .d hne), fun hne => he (hmem .e hne), fun hne => hh (hmem .h hne),
    fun hne => hl (hmem .l hne), fun hne => ?_⟩
  obtain ⟨v, hform⟩ := (regsAfter_of_exec h).sp_changed hne
  exact ⟨v, eq_ldSPd16_of_form hform⟩

/-! Outside the Register File (rules R19, R23, R28, R63). -/

/-- An instruction that is no store changes registers and the count of free bytes alone. -/
theorem state_eq_of_exec {i : Instr} {s t : State} (hkind : i.kind ≠ .store) (h : exec i s = .next t) :
    t = { s with regs := t.regs, oracle := t.oracle } := by
  obtain ⟨g, w, he, ⟨rfl, -⟩ | ⟨hstore, -⟩ | ⟨-, rfl⟩⟩ := exec_cases i s
  · rw [he] at h
    cases h
    rfl
  · exact absurd hstore hkind
  · rw [he, afterRead_eq] at h
    cases h
    rfl

/-- Settles O42: no part of memory is among what such an instruction changes, and a read away from the prohibited
range does not depend on what is. -/
theorem onlyStoresWriteMemory : Obligations.OnlyStoresWriteMemory := by
  intro i s t hkind h
  rw [state_eq_of_exec hkind h]
  exact ⟨rfl, rfl, rfl, rfl, rfl, rfl, rfl, rfl, rfl,
    fun b hb => readByte_of_same_memory b rfl rfl rfl rfl rfl rfl (.inr hb)⟩

/-- No byte write changes LY or the low bits of STAT (rule R28). -/
theorem memWrite_ly_stat_low (s : State) (a : Word) (v : Byte) :
    (memWrite s a v).io.ly = s.io.ly ∧ (memWrite s a v).io.stat &&& 0x07#8 = s.io.stat &&& 0x07#8 := by
  rcases memWrite_cases s a v with ⟨_, e⟩ | ⟨_, e⟩ | ⟨_, _, e⟩ | ⟨_, e⟩ | ⟨r, _, _, e⟩ | ⟨_, _, _, e⟩ | ⟨_, e⟩ <;>
    rw [e]
  · exact ⟨rfl, rfl⟩
  · exact ⟨rfl, rfl⟩
  · exact ⟨rfl, rfl⟩
  · exact ⟨rfl, rfl⟩
  · exact ⟨writeIoReg_ly s.io r v, writeIoReg_stat_low s.io r v⟩
  · exact ⟨rfl, rfl⟩
  · exact ⟨rfl, rfl⟩

/-- Settles O46: a store is one byte write, which changes none of these, and the other instructions change no memory. -/
theorem noInstructionReachesHiddenState : Obligations.NoInstructionReachesHiddenState := by
  intro i s t h
  obtain ⟨g, w, he, ⟨rfl, -⟩ | ⟨-, a, v, rfl⟩ | ⟨-, rfl⟩⟩ := exec_cases i s
  · rw [he] at h
    cases h
    exact ⟨rfl, rfl, rfl, rfl, rfl, rfl, rfl⟩
  · rw [he] at h
    cases h
    exact ⟨memWrite_params s a v, memWrite_ime s a v, memWrite_latch s a v, memWrite_cart s a v, memWrite_boot s a v,
      memWrite_ly_stat_low s a v⟩
  · rw [he, afterRead_eq] at h
    cases h
    exact ⟨rfl, rfl, rfl, rfl, rfl, rfl, rfl⟩

/-! Stores (rules R120 to R130). -/

/-- An instruction with a pointer and a register to store is that store. -/
theorem exec_of_storeOperands {i : Instr} {p : Pointer} {r : Reg8} (h : storeOperands i = some (p, r)) (s : State) :
    exec i s = storeThrough p r s := by
  cases i <;> cases h <;> rfl

/-- Settles O34: the state after the store is that of its byte write, but for registers; the write is seen at its
address alone. -/
theorem storeReachesItsAddressOnly : Obligations.StoreReachesItsAddressOnly := by
  intro s t i p r hoperands h
  rw [exec_of_storeOperands hoperands, storeThrough_next] at h
  cases h
  refine ⟨fun hram => ?_, fun b hne hview => ?_, memWrite_params _ _ _, memWrite_ime _ _ _, memWrite_latch _ _ _,
    memWrite_cart _ _ _, memWrite_boot _ _ _, memWrite_oracle _ _ _, afterPointer_f s p, memWrite_events _ _ _⟩
  · rw [readByte_withRegs, memWrite_ram s _ hram, readByte_writeRam_same s _ hram]
  · rw [readByte_withRegs, readByte_memWrite_other _ hne hview]

/-! The assembler's relative jump (rules R91, R171). -/

/-- Extending the byte of a number that fits in it gives the word of that number (rule R6). -/
theorem sext16_ofInt {d : Int} (hlo : -128 ≤ d) (hhi : d ≤ 127) : sext16 (BitVec.ofInt 8 d) = BitVec.ofInt 16 d := by
  have hfits : (BitVec.ofInt 8 d).toInt = d := by
    rw [BitVec.toInt_ofInt]
    exact Int.bmod_eq_of_le (by omega) (by omega)
  rw [sext16, BitVec.signExtend, hfits]

/-- The displacement to a target from the address past the jump leads there, addresses wrapping. -/
theorem displacement_reaches (pc target : Word) :
    pc + 2#16 + BitVec.ofInt 16 (target.toNat - (pc.toNat + 2)) = target := by
  have htarget := target.isLt
  apply BitVec.eq_of_toNat_eq
  simp only [BitVec.toNat_add, BitVec.toNat_ofInt, BitVec.toNat_ofNat]
  omega

/-- The assembler answers a jump by the distance from the address past it, where that fits in a byte (rule R91). -/
theorem assembleJrNZ_eq_some {pc target : Word} {i : Instr} (h : assembleJrNZ pc target = some i) :
    ∃ d : Int, d = target.toNat - (pc.toNat + 2) ∧ -128 ≤ d ∧ d ≤ 127 ∧ i = .jrNZ (BitVec.ofInt 8 d) := by
  obtain ⟨⟨hlo, hhi⟩, hi⟩ := Option.ite_none_right_eq_some.mp h
  exact ⟨_, rfl, hlo, hhi, (Option.some.inj hi).symm⟩

/-- Settles O40: the displacement fits in its byte, whose extension is added to the address past the jump. -/
theorem assembledRelativeJumpReachesItsTarget : Obligations.AssembledRelativeJumpReachesItsTarget := by
  intro s target i hassembled hz
  obtain ⟨d, rfl, hlo, hhi, rfl⟩ := assembleJrNZ_eq_some hassembled
  rw [exec_jrNZ, hz, sext16_ofInt hlo hhi, displacement_reaches, if_neg Bool.false_ne_true]

end Sys2Proof.Machine

/-! PROOFS. The environment and runs with it (60_exceptions.md sections 2, 3 and 5): what a call can reach, an induction
over runs said once, and the obligations about them. -/

namespace Sys2Proof.Machine

/-! The primitives and the sources (rules R186, R199, R201, R202). -/

/-- Settles O50: the table of the definitions; a mask is one bit. -/
theorem interruptSourcesTable : Obligations.InterruptSourcesTable := by
  refine ⟨rfl, rfl, rfl, rfl, rfl, fun v => ⟨rfl, rfl, rfl, rfl, rfl⟩, rfl, fun n => ?_⟩
  cases n <;> rfl

/-- With LY below the period the 8-bit sum and the exact one give the same scanline: they differ at 0xFF alone, where
both leave 0 in a byte (rule R199). -/
theorem nextScanline_eq {period : Nat} {ly : Byte} (h : ly.toNat < period) :
    nextScanline period ly = BitVec.ofNat 8 ((ly.toNat + 1) % period) := by
  have hsum : (ly + 1#8).toNat = (ly.toNat + 1) % 256 := BitVec.toNat_add ly 1#8
  rw [nextScanline, hsum]
  by_cases hwraps : ly.toNat = 255
  · have hperiod : period = 256 ∨ 256 < period := by omega
    rcases hperiod with rfl | hlarge
    · rw [hwraps]
    · rw [hwraps, Nat.mod_eq_of_lt hlarge, Nat.mod_self, Nat.zero_mod]
      rfl
  · have hly := ly.isLt
    rw [Nat.mod_eq_of_lt (a := ly.toNat + 1) (b := 256) (by omega)]

/-- A scanline advance leaves LY below its period (rule R199). -/
theorem nextScanline_lt {period : Nat} (hpos : 0 < period) (ly : Byte) : (nextScanline period ly).toNat < period :=
  calc (nextScanline period ly).toNat
      ≤ (ly + 1#8).toNat % period := Nat.mod_le _ _
    _ < period := Nat.mod_lt _ hpos

/-- Settles O53: the primitives are updates of one register, LY's by the period. -/
theorem scanlineStatAndJoypadPrimitives : Obligations.ScanlineStatAndJoypadPrimitives := by
  refine ⟨fun s m v => ⟨fun hly => ?_, rfl, rfl⟩, rfl⟩
  rw [← nextScanline_eq hly]
  rfl

/-! What the environment reaches (rule R203). -/

/-- Nothing but the registers the environment may change differs: DIV, TIMA, IF, LY, JOYP and the low bits of STAT. -/
structure OnlyEnvironmentRegisters (s t : State) : Prop where
  onlyIo : t = { s with io := t.io }
  audio : t.io.audio = s.io.audio
  ie : t.io.ie = s.io.ie
  statHigh : t.io.stat &&& 0xF8#8 = s.io.stat &&& 0xF8#8
  others : ∀ r, r ≠ .div → r ≠ .tima → r ≠ .intf → r ≠ .ly → r ≠ .stat → r ≠ .joyp → t.io.get r = s.io.get r

theorem OnlyEnvironmentRegisters.refl (s : State) : OnlyEnvironmentRegisters s s :=
  ⟨rfl, rfl, rfl, rfl, fun _ _ _ _ _ _ _ => rfl⟩

theorem OnlyEnvironmentRegisters.trans {s t u : State} (hst : OnlyEnvironmentRegisters s t)
    (htu : OnlyEnvironmentRegisters t u) : OnlyEnvironmentRegisters s u where
  onlyIo := by rw [htu.onlyIo, hst.onlyIo]
  audio := htu.audio.trans hst.audio
  ie := htu.ie.trans hst.ie
  statHigh := htu.statHigh.trans hst.statHigh
  others r h1 h2 h3 h4 h5 h6 := (htu.others r h1 h2 h3 h4 h5 h6).trans (hst.others r h1 h2 h3 h4 h5 h6)

/-- The registers the environment may change, STAT in its low bits. -/
def environmentRegs : List IoReg := [.div, .tima, .intf, .ly, .stat, .joyp]

/-- Three low bits beside the high bits of STAT leave those as they are (rule R201). -/
theorem statLow_keeps_high (stat : Byte) (m : BitVec 3) :
    ((stat &&& 0xF8#8) ||| m.setWidth 8) &&& 0xF8#8 = stat &&& 0xF8#8 := by
  have hlow : m.setWidth 8 &&& 0xF8#8 = 0x00#8 := by
    revert m
    decide
  rw [BitVec.and_or_distrib_right, hlow, BitVec.or_zero, BitVec.and_assoc, BitVec.and_self]

/-- Setting one of them reaches no other register. -/
theorem OnlyEnvironmentRegisters.set (s : State) {r : IoReg} (v : Byte) (hr : r ∈ environmentRegs)
    (hstat : (s.io.set r v).stat &&& 0xF8#8 = s.io.stat &&& 0xF8#8) :
    OnlyEnvironmentRegisters s (s.setIo (s.io.set r v)) where
  onlyIo := rfl
  audio := Io.set_audio s.io r v
  ie := Io.set_ie s.io r v
  statHigh := hstat
  others q hdiv htima hintf hly hstat hjoyp := by
    refine Io.get_set_other s.io v ?_
    rintro rfl
    simp [environmentRegs, *] at hr

theorem environment_reaches (s : State) (c : EnvCall) : OnlyEnvironmentRegisters s (environment s c) := by
  cases c with
  | requestInterrupt n => exact .set s (r := .intf) _ (by decide) rfl
  | clearInterrupt n => exact .set s (r := .intf) _ (by decide) rfl
  | incrementDivider => exact .set s (r := .div) _ (by decide) rfl
  | timerTick =>
    by_cases h : s.io.tima = 0xFF#8
    · have hreload : OnlyEnvironmentRegisters s (s.setIo (s.io.set .tima s.io.tma)) := .set s _ (by decide) rfl
      rw [environment, timerTick_overflow h]
      exact hreload.trans (.set _ (r := .intf) _ (by decide) rfl)
    · rw [environment, timerTick_count h]
      exact .set s (r := .tima) _ (by decide) rfl
  | scanlineAdvance => exact .set s (r := .ly) _ (by decide) rfl
  | setStatLow m => exact .set s (r := .stat) _ (by decide) (statLow_keeps_high s.io.stat m)
  | setJoypad v => exact .set s (r := .joyp) _ (by decide) rfl

theorem environmentRun_reaches (s : State) (calls : List EnvCall) :
    OnlyEnvironmentRegisters s (environmentRun s calls) := by
  induction calls generalizing s with
  | nil => exact .refl s
  | cons c rest ih => exact (environment_reaches s c).trans (ih (environment s c))

/-- Settles O54: each call sets one or two of its registers, and what two calls do not reach both leave alone. -/
theorem environmentReachesItsRegistersOnly : Obligations.EnvironmentReachesItsRegistersOnly := by
  intro s calls
  obtain ⟨honly, haudio, hie, hstat, hothers⟩ := environmentRun_reaches s calls
  exact ⟨honly, haudio, hie, hstat, hothers⟩

/-! Runs (rules R9, R200). -/

/-- A property that every call of the environment and every step keeps holds at the end of every run. -/
theorem runScheduled_keeps {P : State → Prop} (hcall : ∀ s c, P s → P (environment s c))
    (hstep : ∀ s t, P s → step s = .next t → P t) {schedule : List (List EnvCall)} {s t : State} (hs : P s)
    (hrun : runScheduled schedule s = .next t) : P t := by
  have hcalls : ∀ calls s, P s → P (environmentRun s calls) := by
    intro calls
    induction calls with
    | nil => exact fun s hs => hs
    | cons c rest ih => exact fun s hs => ih _ (hcall s c hs)
  induction schedule generalizing s with
  | nil => cases hrun; exact hs
  | cons calls rest ih =>
    unfold runScheduled at hrun
    split at hrun
    next u hu => exact ih (hstep _ u (hcalls calls s hs) hu) hrun
    next => cases hrun
    next => cases hrun

/-! IME (rules R19, R194). -/

/-- What no call of the environment and no step from a state with IME clear changes: IME, and the latch. -/
def ImeClear (latch : Option FatalFault) (s : State) : Prop := s.ime = false ∧ s.latch = latch

theorem imeClear_environment {latch : Option FatalFault} {s : State} (h : ImeClear latch s) (c : EnvCall) :
    ImeClear latch (environment s c) := by
  rw [(environment_reaches s c).onlyIo]
  exact h

theorem interruptDue_of_ime_clear {s : State} (h : s.ime = false) : interruptDue s = false := by
  rw [interruptDue, h, Bool.false_and]

/-- With IME clear a step that goes on is an instruction, which sets neither IME nor the latch. -/
theorem imeClear_step {latch : Option FatalFault} {s t : State} (h : ImeClear latch s) (hstep : step s = .next t) :
    ImeClear latch t := by
  obtain ⟨hime, hlatch⟩ := h
  rcases step_cases s with ⟨f, -, e⟩ | ⟨-, hdue, -⟩ | ⟨-, -, -, e⟩ | ⟨-, -, n, i, -, -, e⟩
  · rw [e] at hstep
    cases hstep
  · rw [interruptDue_of_ime_clear hime] at hdue
    cases hdue
  · rw [e] at hstep
    cases hstep
  · rw [e, readBytes_state] at hstep
    obtain ⟨-, hime', hlatch', -⟩ := noInstructionReachesHiddenState i _ t hstep
    exact ⟨hime'.trans hime, hlatch'.trans hlatch⟩

/-- Settles O51: `ImeClear` is kept along the run and by the calls after it, and with IME clear none is due. -/
theorem noInterruptOnceImeIsClear : Obligations.NoInterruptOnceImeIsClear := by
  intro schedule s t hime hrun
  obtain ⟨hime', hlatch'⟩ : ImeClear s.latch t :=
    runScheduled_keeps (P := ImeClear s.latch) (fun _ c h => imeClear_environment h c)
      (fun _ _ h hstep => imeClear_step h hstep) ⟨hime, rfl⟩ hrun
  refine ⟨hime', hlatch', fun calls => interruptDue_of_ime_clear ?_⟩
  rw [(environmentRun_reaches t calls).onlyIo]
  exact hime'

/-! The invariant (10_state.md sections 5 and 6). -/

/-- The Register File, IME, the latch, the events and the count of free bytes are no part of the invariant. -/
theorem Inv.of_same_memory {s t : State} (h : Inv s) (hparams : t.params = s.params) (hram : t.ram = s.ram)
    (hio : t.io = s.io) (hboot : t.boot = s.boot) (hcart : t.cart = s.cart) (hbank : t.bank = s.bank) : Inv t :=
  h.of_same_stores hparams hram (by rw [hio]) hboot hcart hbank (by rw [hio]; exact h.scanline)

theorem Inv.clearEvents {s : State} (h : Inv s) : Inv s.clearEvents :=
  h.of_same_memory rfl rfl rfl rfl rfl rfl

theorem Inv.setOracle {s : State} (h : Inv s) (n : Nat) : Inv (s.setOracle n) :=
  h.of_same_memory rfl rfl rfl rfl rfl rfl

/-- An instruction is at most one byte write, and for the rest changes no store. -/
theorem Inv.exec {i : Instr} {s t : State} (h : Inv s) (hexec : Sys2Proof.Machine.exec i s = .next t) : Inv t := by
  obtain ⟨g, w, he, hw⟩ := exec_cases i s
  rw [he] at hexec
  cases hexec
  have hinv : Inv w := by
    obtain ⟨rfl, -⟩ | ⟨-, a, v, rfl⟩ | ⟨-, rfl⟩ := hw
    · exact h
    · exact h.memWrite a v
    · rw [afterRead_eq]
      exact h.setOracle _
  exact hinv.of_same_memory rfl rfl rfl rfl rfl rfl

/-- Interrupt service is two byte writes, and for the rest changes IF and no store. -/
theorem Inv.serviceInterrupt {s : State} (h : Inv s) : Inv (Sys2Proof.Machine.serviceInterrupt s) := by
  cases hfirst : firstPending s with
  | none => rw [Sys2Proof.Machine.serviceInterrupt, hfirst]; exact h
  | some n =>
    have hbefore : Inv (beforePush s n) := h.of_same_stores rfl rfl rfl rfl rfl rfl h.scanline
    rw [serviceInterrupt_of_firstPending hfirst, takeInterrupt_eq]
    exact ((hbefore.memWrite _ _).memWrite _ _).of_same_memory rfl rfl rfl rfl rfl rfl

/-- A step that goes on keeps the invariant. -/
theorem Inv.step {s t : State} (h : Inv s) (hstep : Sys2Proof.Machine.step s = .next t) : Inv t := by
  rcases step_cases s with ⟨f, -, e⟩ | ⟨-, -, e⟩ | ⟨-, -, -, e⟩ | ⟨-, -, n, i, -, -, e⟩ <;> rw [e] at hstep
  · cases hstep
  · cases hstep
    exact h.clearEvents.serviceInterrupt
  · cases hstep
  · rw [readBytes_state] at hstep
    exact (h.clearEvents.setOracle _).exec hstep

/-- The state a decode fault leaves has the latch set, and no store is changed (rule R181). -/
theorem Inv.decodeFault {s t : State} {op : Byte} {a : Word} (h : Inv s)
    (hstep : Sys2Proof.Machine.step s = .fault (.decodeFault op a t)) : Inv t := by
  rcases step_cases s with ⟨f, -, e⟩ | ⟨-, -, e⟩ | ⟨-, -, -, e⟩ | ⟨-, -, n, i, -, -, e⟩ <;> rw [e] at hstep
  · cases hstep
  · cases hstep
  · rw [afterRead_eq] at hstep
    cases hstep
    exact h.of_same_memory rfl rfl rfl rfl rfl rfl
  · obtain ⟨u, hu⟩ := exec_goes_on i (readBytes s.clearEvents s.regs.pc (n + 1)).2
    rw [hu] at hstep
    cases hstep

/-- Settles O59: service and instructions write bytes by `memWrite`, which keeps the invariant. -/
theorem stepKeepsInvariant : Obligations.StepKeepsInvariant :=
  fun _ h => ⟨fun _ hstep => h.step hstep, fun _ _ _ hstep => h.decodeFault hstep⟩

/-- A scanline advance is the one call that changes LY. -/
theorem environment_ly (s : State) (c : EnvCall) :
    (environment s c).io.ly = s.io.ly ∨ (environment s c).io.ly = nextScanline s.params.lyPeriod s.io.ly := by
  cases c
  case scanlineAdvance => exact .inr rfl
  case timerTick =>
    refine .inl ?_
    by_cases h : s.io.tima = 0xFF#8
    · rw [environment, timerTick_overflow h]
      rfl
    · rw [environment, timerTick_count h]
      rfl
  all_goals exact .inl rfl

theorem Inv.environment {s : State} (h : Inv s) (c : EnvCall) : Inv (Sys2Proof.Machine.environment s c) := by
  have hreach := environment_reaches s c
  have hly : (Sys2Proof.Machine.environment s c).io.ly.toNat < s.params.lyPeriod := by
    rcases environment_ly s c with hsame | hnext
    · rw [hsame]
      exact h.scanline
    · rw [hnext]
      exact nextScanline_lt h.params.periodPos s.io.ly
  rw [hreach.onlyIo]
  exact h.of_same_stores rfl rfl hreach.audio rfl rfl rfl hly

/-! The ROM buffers and the parameters (rules R4, R23). -/

/-- The parts of the state that are fixed at construction. -/
def SameRom (s t : State) : Prop := t.params = s.params ∧ t.cart = s.cart ∧ t.boot = s.boot

theorem serviceInterrupt_sameRom (s : State) : SameRom s (serviceInterrupt s) := by
  cases hfirst : firstPending s with
  | none => rw [serviceInterrupt, hfirst]; exact ⟨rfl, rfl, rfl⟩
  | some n =>
    rw [serviceInterrupt_of_firstPending hfirst]
    exact ⟨takeInterrupt_params s n, takeInterrupt_cart s n, takeInterrupt_boot s n⟩

theorem step_sameRom {s t : State} (hstep : step s = .next t) : SameRom s t := by
  rcases step_cases s with ⟨f, -, e⟩ | ⟨-, -, e⟩ | ⟨-, -, -, e⟩ | ⟨-, -, n, i, -, -, e⟩ <;> rw [e] at hstep
  · cases hstep
  · cases hstep
    exact serviceInterrupt_sameRom s.clearEvents
  · cases hstep
  · rw [readBytes_state] at hstep
    obtain ⟨hparams, -, -, hcart, hboot, -⟩ := noInstructionReachesHiddenState i _ t hstep
    exact ⟨hparams, hcart, hboot⟩

theorem SameRom.trans {s t u : State} (hst : SameRom s t) (htu : SameRom t u) : SameRom s u := by
  obtain ⟨hp, hc, hb⟩ := hst
  obtain ⟨hp', hc', hb'⟩ := htu
  exact ⟨hp'.trans hp, hc'.trans hc, hb'.trans hb⟩

theorem environment_sameRom (s : State) (c : EnvCall) : SameRom s (environment s c) := by
  rw [(environment_reaches s c).onlyIo]
  exact ⟨rfl, rfl, rfl⟩

/-- Settles O60: each call and each step keeps the invariant and the ROM buffers, so a run does. -/
theorem scheduledRunKeepsInvariantAndRom : Obligations.ScheduledRunKeepsInvariantAndRom := by
  intro schedule s t hinv hrun
  obtain ⟨hinv', hrom⟩ : Inv t ∧ SameRom s t :=
    runScheduled_keeps (P := fun u => Inv u ∧ SameRom s u)
      (fun u c ⟨hu, hsu⟩ => ⟨hu.environment c, hsu.trans (environment_sameRom u c)⟩)
      (fun _ _ ⟨hu, hsu⟩ hstep => ⟨hu.step hstep, hsu.trans (step_sameRom hstep)⟩) ⟨hinv, rfl, rfl, rfl⟩ hrun
  exact ⟨hinv', hrom⟩

end Sys2Proof.Machine

/-! PROOFS. Loading and construction (20_memory.md section 7; 70_reset_and_hazards.md sections 1 and 4): which images
load, what the loaded banks hold, and the obligations about constructed states. -/

namespace Sys2Proof.Machine

/-! The load (rules R66, R67). -/

theorem loadCartridge_tooSmall {p : Params} {image : List Byte} (h : image.length < Config.bankSize) :
    loadCartridge p image = .error (.imageTooSmall image.length) := if_pos h

/-- An image that is large enough fails to load where its type byte selects no controller. -/
theorem loadCartridge_unsupported {p : Params} {image : List Byte} {b : Byte} (hsize : Config.bankSize ≤ image.length)
    (hb : image[p.typeOffset]? = some b) (hnone : controllerOfType p b = none) :
    loadCartridge p image = .error (.unsupportedController b) := by
  have hbyte : image.getD p.typeOffset 0x00#8 = b := by rw [List.getD_eq_getElem?_getD, hb, Option.getD_some]
  rw [loadCartridge, if_neg (Nat.not_lt.mpr hsize), hbyte, hnone]

/-- It loads where the type byte selects a controller. -/
theorem loadCartridge_supported {p : Params} {image : List Byte} {b : Byte} {c : Controller}
    (hsize : Config.bankSize ≤ image.length) (hb : image[p.typeOffset]? = some b) (hc : controllerOfType p b = some c) :
    loadCartridge p image = .ok ⟨Memory.ofBytes 0 image, image.length, c⟩ := by
  have hbyte : image.getD p.typeOffset 0x00#8 = b := by rw [List.getD_eq_getElem?_getD, hb, Option.getD_some]
  rw [loadCartridge, if_neg (Nat.not_lt.mpr hsize), hbyte, hc]

theorem controllerOfType_unsupported {p : Params} {b : Byte} (hno : b ≠ p.typeNoBanking) (hlinear : b ≠ p.typeLinear) :
    controllerOfType p b = none := by
  rw [controllerOfType, if_neg hno, if_neg hlinear]

/-- Each of the two type bytes, being distinct, selects its own controller. -/
theorem controllerOfType_supported {p : Params} (hlegal : ParamsLegal p) {b : Byte} {c : Controller}
    (h : (b = p.typeNoBanking ∧ c = .noBanking) ∨ (b = p.typeLinear ∧ c = .linearBanked)) :
    controllerOfType p b = some c := by
  rcases h with ⟨rfl, rfl⟩ | ⟨rfl, rfl⟩
  · exact if_pos rfl
  · rw [controllerOfType, if_neg hlegal.typesDistinct.symm, if_pos rfl]

/-- What a load that succeeds gives: the image whole, of at least one bank. -/
theorem loadCartridge_ok {p : Params} {image : List Byte} {cart : Cartridge} (h : loadCartridge p image = .ok cart) :
    Config.bankSize ≤ image.length ∧ cart.image = Memory.ofBytes 0 image ∧ cart.length = image.length := by
  unfold loadCartridge at h
  split at h
  · cases h
  next hsize =>
    split at h
    · cases h
    · cases h
      exact ⟨Nat.le_of_not_lt hsize, rfl, rfl⟩

theorem construct_error {p : Params} {image boot : List Byte} {e : LoadFault} (h : loadCartridge p image = .error e) :
    construct p image boot = .error e := by
  rw [construct, h]

theorem construct_of_load {p : Params} {image : List Byte} {cart : Cartridge} (boot : List Byte)
    (h : loadCartridge p image = .ok cart) :
    construct p image boot = .ok (State.resetWith p cart (Memory.ofBytes 0 (boot.take Config.bootSize))) := by
  rw [construct, h]

theorem exists_construct_of_load {p : Params} {image : List Byte} {cart : Cartridge} (boot : List Byte)
    (h : loadCartridge p image = .ok cart) : ∃ s, construct p image boot = .ok s ∧ s.cart = cart :=
  ⟨_, construct_of_load boot h, rfl⟩

/-- What a construction that succeeds gives: the reset state over a loaded cartridge and the boot program. -/
theorem construct_ok {p : Params} {image boot : List Byte} {s : State} (h : construct p image boot = .ok s) :
    ∃ cart, loadCartridge p image = .ok cart ∧
      s = State.resetWith p cart (Memory.ofBytes 0 (boot.take Config.bootSize)) := by
  cases hload : loadCartridge p image with
  | error e => rw [construct_error hload] at h; cases h
  | ok cart =>
    rw [construct_of_load boot hload] at h
    cases h
    exact ⟨cart, rfl, rfl⟩

/-! The banks and the title (rule R66). -/

/-- N is the number of banks beyond the first that the image reaches into: N banks do not hold it. -/
theorem bankCount_lt {s : State} (h : 0x4000 ≤ s.cart.length) : bankCount s * 0x4000 < s.cart.length := by
  simp only [bankCount, Config.bankSize]
  omega

/-- N switchable banks and the fixed one hold the image. -/
theorem length_le_bankCount (s : State) : s.cart.length ≤ (bankCount s + 1) * 0x4000 := by
  simp only [bankCount, Config.bankSize]
  omega

/-- A loaded image reads back at its offsets. -/
theorem imageAt_ofBytes {s : State} {image : List Byte} (himage : s.cart.image = Memory.ofBytes 0 image)
    (hlength : s.cart.length = image.length) {k : Nat} (hk : k < image.length) : imageAt s k = image[k] := by
  have hread : Memory.read none s.cart.image k = some image[k] := by
    rw [himage, ← Memory.read_ofBytes 0 image k hk, Nat.zero_add]
  rw [imageAt, if_pos (hlength ▸ hk), hread]
  rfl

theorem cartridgeTitle_getElem? (p : Params) (image : List Byte) {k : Nat} (hk : k < 15) :
    (cartridgeTitle p image)[k]? = image[p.titleOffset + k]? := by
  rw [cartridgeTitle, List.getElem?_take_of_lt hk, List.getElem?_drop]

theorem cartridgeTitle_length {p : Params} (hlegal : ParamsLegal p) {image : List Byte}
    (hsize : Config.bankSize ≤ image.length) : (cartridgeTitle p image).length = 15 := by
  have hroom : Config.titleLength ≤ image.length - p.titleOffset :=
    Nat.le_sub_of_add_le' (hlegal.titleInImage.trans hsize)
  rw [cartridgeTitle, List.length_take, List.length_drop, Nat.min_eq_left hroom]

/-- Settles O55: the size and the type byte decide the load; a loaded image is its list of bytes, and its banks are
counted from its length. -/
theorem loadChecksAndSlicesImage : Obligations.LoadChecksAndSlicesImage := by
  refine ⟨fun p image boot hlegal => ⟨fun hsmall => construct_error (loadCartridge_tooSmall hsmall), fun hsize =>
    ⟨fun k hk => cartridgeTitle_getElem? p image hk, cartridgeTitle_length hlegal hsize, fun b hb => ?_⟩⟩,
    rfl, rfl, rfl, rfl⟩
  refine ⟨fun hno hlinear => ?_, fun c hc => ?_⟩
  · exact construct_error (loadCartridge_unsupported hsize hb (controllerOfType_unsupported hno hlinear))
  · have hload := loadCartridge_supported hsize hb (controllerOfType_supported hlegal hc)
    obtain ⟨s, hs, hcart⟩ := exists_construct_of_load boot hload
    have himage : s.cart.image = Memory.ofBytes 0 image := by rw [hcart]
    have hlength : s.cart.length = image.length := by rw [hcart]
    refine ⟨s, hs, by rw [hcart], ?_, ?_, fun k hk => imageAt_ofBytes himage hlength hk,
      fun k hk => imageAt_beyond (hlength ▸ hk)⟩
    · exact hlength ▸ bankCount_lt (hlength ▸ hsize)
    · exact hlength ▸ length_le_bankCount s

/-! The first fetches (rules R44, R223). -/

/-- In the reset state the first 256 bytes of the address space are the boot program. -/
theorem readByte_resetWith_boot (p : Params) (cart : Cartridge) {boot : List Byte} {k : Nat} (hk : k < boot.length)
    (hoverlay : k < 0x100) :
    readByte (State.resetWith p cart (Memory.ofBytes 0 (boot.take Config.bootSize))) (BitVec.ofNat 16 k) = boot[k] := by
  have haddr : (BitVec.ofNat 16 k).toNat = k := Nat.mod_eq_of_lt (by omega)
  have htake : k < (boot.take Config.bootSize).length := by
    rw [List.length_take]
    exact lt_min hoverlay hk
  have hread := Memory.read_ofBytes 0 (boot.take Config.bootSize) k htake
  rw [Nat.zero_add, List.getElem_take] at hread
  rw [readByte_fixedRom (region_fixedRom (by omega)), readFixedRom_eq, haddr, if_pos ⟨by omega, rfl⟩, bootAt]
  exact congrArg (·.getD (Config.bootByte k)) hread

/-- Settles O56: a construction that succeeds is the reset state over what was loaded, where the overlay is active. -/
theorem constructionGivesResetState : Obligations.ConstructionGivesResetState := by
  intro p image boot s h
  obtain ⟨cart, -, rfl⟩ := construct_ok h
  exact ⟨rfl, fun k hk hoverlay => readByte_resetWith_boot p cart hk hoverlay⟩

/-! The invariant of reset states (10_state.md section 9). -/

/-- The reset state meets the invariant over a cartridge of at least one bank and a boot program that fits: RAM and
AUDIO list nothing, BANK is 1 and LY is 0. -/
theorem Inv.resetWith {p : Params} {cart : Cartridge} {boot : Memory} (hlegal : ParamsLegal p)
    (hboot : Memory.wf none boot) (hbootKeys : ∀ c ∈ boot, c.1 < Config.bootSize)
    (himage : Memory.wf none cart.image) (himageKeys : ∀ c ∈ cart.image, c.1 < cart.length)
    (hsize : Config.bankSize ≤ cart.length) : Inv (State.resetWith p cart boot) where
  params := hlegal
  ramForm := ⟨.nil, nofun⟩
  ramKeys := nofun
  audioForm := ⟨.nil, nofun⟩
  audioKeys := nofun
  bootForm := hboot
  bootKeys := hbootKeys
  imageForm := himage
  imageKeys := himageKeys
  imageSize := hsize
  bank := ⟨Nat.le_refl 1, Nat.le_max_right _ 1, fun _ => rfl⟩
  scanline := hlegal.periodPos

/-- Settles O57: the defaults are legal, and neither the cartridge nor the boot program lists a byte. -/
theorem resetMeetsInvariant : Obligations.ResetMeetsInvariant :=
  Inv.resetWith defaultParams_legal ⟨.nil, nofun⟩ nofun ⟨.nil, nofun⟩ nofun (Nat.le_add_right _ _)

/-- Settles O58: a loaded list of bytes is in canonical form, with keys below its length; that of the boot program is
at most 256, that of the image at least one bank. -/
theorem constructedStateMeetsInvariant : Obligations.ConstructedStateMeetsInvariant := by
  intro p image boot s hlegal h
  obtain ⟨cart, hload, rfl⟩ := construct_ok h
  obtain ⟨hsize, himage, hlength⟩ := loadCartridge_ok hload
  refine Inv.resetWith hlegal (Memory.ofBytes_wf 0 _) (fun c hc => ?_) (himage ▸ Memory.ofBytes_wf 0 image)
    (fun c hc => ?_) (hlength ▸ hsize)
  · obtain ⟨-, hkey⟩ := Memory.mem_ofBytes hc
    rw [List.length_take] at hkey
    omega
  · rw [himage] at hc
    obtain ⟨-, hkey⟩ := Memory.mem_ofBytes hc
    omega

end Sys2Proof.Machine
